-- ==== Sys2Proof/Word.lean ====
section
/-! DEFINITION. The machine's word, the byte of its two streams, and its register index. -/

namespace Sys2Proof

/-- "Word. A 32-bit unsigned integer." (00_scope.md R6, R9.) Arithmetic on words is modulo 2^32. -/
abbrev Word := BitVec 32

/-- The unit of input and output (00_scope.md R6, "Byte I/O"). -/
abbrev Byte := BitVec 8

/-- A register index: a 3-bit field, so every index names a register (10_state.md R10). -/
abbrev Reg := Fin 8

end Sys2Proof
end

