-- ==== Sys2Proof/Syntax.lean ====
section
/-! DEFINITION. The instructions, one constructor per row of spec/opcode_table.json, with the fields
each one uses and no other (30_encoding.md R65, R66, R70). -/

namespace Sys2Proof

/-- The instruction set (30_encoding.md R65). Fields stand in the order A, B, C; ignored fields are
omitted, as in the syntax of R70. -/
inductive Instr where
  /-- CMOV xA, xB, xC -/
  | cmov (a b c : Reg)
  /-- SLOAD xA, xB, xC -/
  | sload (a b c : Reg)
  /-- SSTORE xA, xB, xC -/
  | sstore (a b c : Reg)
  /-- ADD xA, xB, xC -/
  | add (a b c : Reg)
  /-- MUL xA, xB, xC -/
  | mul (a b c : Reg)
  /-- DIV xA, xB, xC -/
  | div (a b c : Reg)
  /-- NAND xA, xB, xC -/
  | nand (a b c : Reg)
  /-- HALT -/
  | halt
  /-- MAP xB, xC -/
  | map (b c : Reg)
  /-- UNMAP xC -/
  | unmap (c : Reg)
  /-- OUT xC -/
  | out (c : Reg)
  /-- IN xC -/
  | inp (c : Reg)
  /-- LOADPROG xB, xC -/
  | loadprog (b c : Reg)
  /-- LOADV xA, literal -/
  | loadv (a : Reg) (literal : Nat)
  /-- Opcode value 14: "not an instruction: executing it raises Fault(IllegalInstruction)" (R67). -/
  | illegal14
  /-- Opcode value 15: likewise (R67). -/
  | illegal15
  deriving DecidableEq, Repr

/-- The value of w[31:28] that selects the constructor (30_encoding.md R65, column Code). -/
def Instr.opcode : Instr → Nat
  | .cmov _ _ _ => 0
  | .sload _ _ _ => 1
  | .sstore _ _ _ => 2
  | .add _ _ _ => 3
  | .mul _ _ _ => 4
  | .div _ _ _ => 5
  | .nand _ _ _ => 6
  | .halt => 7
  | .map _ _ => 8
  | .unmap _ => 9
  | .out _ => 10
  | .inp _ => 11
  | .loadprog _ _ => 12
  | .loadv _ _ => 13
  | .illegal14 => 14
  | .illegal15 => 15

end Sys2Proof
end

