-- ==== Sys2Proof/Decode.lean ====
section
/-! DEFINITION. The decoder, total on every word (30_encoding.md R63), and the encoder (R70). -/

namespace Sys2Proof

/-- w[hi:lo], the unsigned value of bits hi down to lo, both inclusive (00_scope.md R8). -/
def bits (w : Word) (hi lo : Nat) : Nat := w.toNat / 2 ^ lo % 2 ^ (hi + 1 - lo)

/-- The register index in bits lo+2 .. lo. -/
def regField (w : Word) (lo : Nat) : Reg := Fin.ofNat 8 (bits w (lo + 2) lo)

/-- op = w[31:28] (30_encoding.md R60). -/
def opField (w : Word) : Nat := bits w 31 28

/-- A = w[8:6] of format R3 (30_encoding.md R61). -/
def fieldA (w : Word) : Reg := regField w 6

/-- B = w[5:3] of format R3 (30_encoding.md R61). -/
def fieldB (w : Word) : Reg := regField w 3

/-- C = w[2:0] of format R3 (30_encoding.md R61). -/
def fieldC (w : Word) : Reg := regField w 0

/-- A = w[27:25] of format LV (30_encoding.md R62). -/
def fieldLvA (w : Word) : Reg := regField w 25

/-- literal = w[24:0] of format LV (30_encoding.md R62). -/
def fieldLiteral (w : Word) : Nat := bits w 24 0

/-- The decoding algorithm (30_encoding.md R63), total: the opcode values 14 and 15 are Illegal(op),
here the constructors named after them. Bits 27..9 of format R3 and unused register fields are not
looked at (R61, R66). -/
def decode (w : Word) : Instr :=
  match opField w with
  | 0 => .cmov (fieldA w) (fieldB w) (fieldC w)
  | 1 => .sload (fieldA w) (fieldB w) (fieldC w)
  | 2 => .sstore (fieldA w) (fieldB w) (fieldC w)
  | 3 => .add (fieldA w) (fieldB w) (fieldC w)
  | 4 => .mul (fieldA w) (fieldB w) (fieldC w)
  | 5 => .div (fieldA w) (fieldB w) (fieldC w)
  | 6 => .nand (fieldA w) (fieldB w) (fieldC w)
  | 7 => .halt
  | 8 => .map (fieldB w) (fieldC w)
  | 9 => .unmap (fieldC w)
  | 10 => .out (fieldC w)
  | 11 => .inp (fieldC w)
  | 12 => .loadprog (fieldB w) (fieldC w)
  | 13 => .loadv (fieldLvA w) (fieldLiteral w)
  | 14 => .illegal14
  | _ => .illegal15

/-- Why a byte stream holds no instruction: every word decodes, so a short stream is the only way. -/
inductive DecodeError where
  /-- Fewer than the four bytes of one word are left. -/
  | truncated (bytesLeft : Nat)
  deriving DecidableEq, Repr

/-- A word from its four bytes in file order, big-endian (20_memory.md R46 (a)). -/
def wordOfBytes (b0 b1 b2 b3 : Byte) : Word :=
  BitVec.ofNat 32 (b0.toNat * 2 ^ 24 + b1.toNat * 2 ^ 16 + b2.toNat * 2 ^ 8 + b3.toNat)

/-- The first instruction of a program file's bytes, and the bytes after it
(30_encoding.md R60, R69; 70_reset_and_hazards.md R172). -/
def decodeBytes : List Byte → Except DecodeError (Instr × List Byte)
  | b0 :: b1 :: b2 :: b3 :: rest => .ok (decode (wordOfBytes b0 b1 b2 b3), rest)
  | short => .error (.truncated short.length)

/-- The instruction the decoder reads from a table row's word. Every instruction is one 32-bit word
(30_encoding.md R60); bits above nbits are 0. -/
def decodeTableWord (nbits w : Nat) : Option Instr :=
  some (decode (BitVec.ofNat 32 (w % 2 ^ nbits)))

/-- The encoder of format R3, ignored bits zero: w = op*2^28 + A*2^6 + B*2^3 + C (30_encoding.md R70). -/
def encodeR3 (op a b c : Nat) : Word :=
  BitVec.ofNat 32 (op * 2 ^ 28 + a * 2 ^ 6 + b * 2 ^ 3 + c)

/-- The encoder of format LV: w = 13*2^28 + A*2^25 + literal (30_encoding.md R70). -/
def encodeLv (a literal : Nat) : Word :=
  BitVec.ofNat 32 (13 * 2 ^ 28 + a * 2 ^ 25 + literal)

/-- The canonical word of an instruction: zeros in every ignored bit and every unused register
field (30_encoding.md R68, R70). -/
def encode : Instr → Word
  | .cmov a b c => encodeR3 0 a b c
  | .sload a b c => encodeR3 1 a b c
  | .sstore a b c => encodeR3 2 a b c
  | .add a b c => encodeR3 3 a b c
  | .mul a b c => encodeR3 4 a b c
  | .div a b c => encodeR3 5 a b c
  | .nand a b c => encodeR3 6 a b c
  | .halt => encodeR3 7 0 0 0
  | .map b c => encodeR3 8 0 b c
  | .unmap c => encodeR3 9 0 0 c
  | .out c => encodeR3 10 0 0 c
  | .inp c => encodeR3 11 0 0 c
  | .loadprog b c => encodeR3 12 0 b c
  | .loadv a literal => encodeLv a literal
  | .illegal14 => encodeR3 14 0 0 0
  | .illegal15 => encodeR3 15 0 0 0

end Sys2Proof
end

