-- ==== Sys2Proof/Machine/Store.lean ====
section
/-! DEFINITION. The data of SEGCTL, the segment store (10_state.md R18, R19; 20_memory.md R30 to R33). -/

namespace Sys2Proof.Machine

/-- A segment: its length in words, "fixed at creation", and its words. Contents are zero at map
time (20_memory.md R31), so only the cells that hold a word other than 0 are listed: (offset, word),
offsets strictly rising and below the length. One cell is one whole word, because no smaller access
exists and no word has a byte order (R46, R47). DESIGN CHOICE (log 17); safe: equal segments are
equal data. -/
structure Segment where
  len   : Word
  cells : List (Nat × Word)
  deriving DecidableEq, Repr

/-- A slot of the segment table (10_state.md R18). -/
inductive Slot where
  /-- The identifier is mapped. -/
  | segment (g : Segment)
  /-- "no segment; the identifier has been unmapped and not yet reused" (R18). -/
  | tombstone
  deriving DecidableEq, Repr

/-- The segment store: the segment table (the index of a slot is its identifier, and table_size is
the number of slots) and the recycle pool, its top first (10_state.md R18, R19). -/
structure Memory where
  slots : List Slot
  pool  : List Word
  deriving DecidableEq, Repr

end Sys2Proof.Machine
end

