-- ==== Sys2Proof/Config.lean ====
section
/-! DEFINITION. What the spec leaves open: the named parameters of 00_scope.md R6, and the free
values, constants without a body that no proof can evaluate. -/

namespace Sys2Proof.Config

open Sys2Proof.Machine (Memory)

/-- Free value: byte number n of an infinite INPUT, beyond the bytes the state lists
(44_io.md R133, 92_eei_decisions.md D9; log 9). -/
opaque inputByte : Nat → Byte

/-- Free value: whether a store can allocate that many more words now
(20_memory.md R42, 92_eei_decisions.md D7; log 7). -/
opaque allocAdmits : Memory → Word → Bool

/-- Free value: how many bytes of that output a faulted run delivers to the host
(93_implementation_defined.md U6; log 10). -/
opaque deliveredOnFault : List Byte → Nat

/-- Free value: EXIT_NONZERO less one (92_eei_decisions.md D18; log 11). -/
opaque exitNonzeroPred : Nat

/-- EXIT_NONZERO, "any value other than 0" (92_eei_decisions.md D18). -/
def exitNonzero : Nat := exitNonzeroPred + 1

/-- The parameter INPUT: "a finite or infinite sequence of bytes; a finite one is followed by
end-of-input for ever" (00_scope.md R6). Of an infinite one the first bytes may be listed; the rest
are free. DESIGN CHOICE of the representation (log 9); safe. -/
inductive InputStream where
  | finite (bytes : List Byte)
  | infinite (known : List Byte)
  deriving DecidableEq, Repr

/-- The parameter alloc_admits(store, length) (20_memory.md R42) as plain data. DESIGN CHOICE of the
representation (log 7); a claim for every policy covers every alloc_admits, by `host`. -/
inductive AllocPolicy where
  /-- The default: always true. -/
  | always
  /-- The words of all mapped segments and the request together are at most that many. -/
  | upTo (words : Nat)
  /-- The free function `allocAdmits`. -/
  | host
  deriving DecidableEq, Repr

/-- The parameters of the machine that a run does not change (00_scope.md R6). PROGRAM is the
argument of `State.load`, EXIT_NONZERO is `exitNonzero`. -/
structure Params where
  input    : InputStream
  alloc    : AllocPolicy
  maxSlots : Nat
  deriving DecidableEq, Repr

/-- The defaults of 00_scope.md R6: alloc_admits always true, MAX_SLOTS = 2^32. INPUT has no default
there; empty is a DESIGN CHOICE (log 9); unsafe for a claim that rests on it. -/
def Params.default : Params :=
  { input := .finite [], alloc := .always, maxSlots := 4294967296 }

end Sys2Proof.Config
end

