-- ==== Sys2Proof/Machine/State.lean ====
section
/-! DEFINITION. The machine's state (10_state.md), the fault causes (60_exceptions.md R141), the ways
a step can stop, and the state after reset (10_state.md R23). -/

namespace Sys2Proof.Machine

/-- The eight fault causes (60_exceptions.md R141). A fault is terminal; taking one is a next state
of the model, with the record set (`State.raise`). -/
inductive FaultCause where
  | illegalInstruction
  | divideByZero
  | outputRange
  | unmappedSegment
  | offsetOutOfRange
  | unmapZero
  | unmapUnmapped
  | resourceExhausted
  deriving DecidableEq, Repr

/-- The fault record (10_state.md R15): the cause, the offset in segment 0 the faulting instruction
was fetched from, and its word. -/
structure FaultRecord where
  cause : FaultCause
  addr  : Word
  word  : Word
  deriving DecidableEq, Repr

/-- The run status (10_state.md R17). -/
inductive RunStatus where
  | running
  | halted
  | ended
  | faulted
  deriving DecidableEq, Repr

/-- Why no step exists: the run is over (10_state.md R17: "Halted, Ended and Faulted are terminal: no
step exists from them"). Raised by `step` alone, before any fetch; no instruction raises one. Safe:
the machine does nothing after its end (DEDUCED, log 2). -/
inductive Fault where
  /-- Raised by `step` in status Halted: a HALT has run, a normal end. Safe. -/
  | runHalted
  /-- Raised by `step` in status Ended: pc is at or past the program length, a normal end. Safe. -/
  | runEnded
  /-- Raised by `step` in status Faulted, with the record: the run failed. Safe. -/
  | runFaulted (r : FaultRecord)
  deriving DecidableEq, Repr

/-- Why the model gives a step no meaning. -/
inductive Refusal where
  /-- An instruction without a meaning yet, by its mnemonic. Raised by no arm of this model. Safe. -/
  | notModelled (mnemonic : String)
  /-- Raised by `step` where pc is below programLength and the cell (0, pc) does not exist, which
  10_state.md R14 rules out of every reachable state (log 21). Safe. -/
  | programLengthNotLengthOfSegmentZero
  deriving DecidableEq, Repr

/-- The state. Rule numbers are those of 10_state.md, but for the last three fields. -/
structure State where
  /-- x[0] to x[7] (R10). -/
  regs          : Vector Word 8
  /-- The program counter, in words of segment 0 (R12). -/
  pc            : Word
  /-- The halted flag (R13). -/
  halted        : Bool
  /-- The program length, in words (R14). -/
  programLength : Word
  /-- The fault record (R15). -/
  fault         : Option FaultRecord
  /-- The segment table, table_size and the recycle pool (R18, R19). -/
  mem           : Memory
  /-- The bytes emitted so far, oldest first (R21 (a)). -/
  out           : List Byte
  /-- How many bytes of INPUT have been consumed (R21 (b)). -/
  inPos         : Nat
  /-- The parameters INPUT, alloc_admits and MAX_SLOTS (00_scope.md R6). No step changes them. -/
  params        : Config.Params
  /-- The `a` of one step: the offset of the instruction in execution (40_instruction_cycle.md R80). -/
  curAddr       : Word
  /-- The `w` of one step: the word in execution, "held for the rest of the step" (R82). -/
  curWord       : Word
  deriving DecidableEq, Repr

/-- The machine right after reset (10_state.md R23) for the empty PROGRAM (L0 = 0, legal by
70_reset_and_hazards.md R172) and the default parameters. PROGRAM is a parameter, loaded from
outside: `State.load` is the reset for any PROGRAM (DESIGN CHOICE, log 1). curAddr and curWord have
no value in the spec; 0 is a DESIGN CHOICE (log 19). -/
def State.reset : State :=
  { regs := Vector.replicate 8 0#32
    pc := 0#32
    halted := false
    programLength := 0#32
    fault := none
    mem := { slots := [.segment { len := 0#32, cells := [] }], pool := [] }
    out := []
    inPos := 0
    params := Config.Params.default
    curAddr := 0#32
    curWord := 0#32 }

end Sys2Proof.Machine
end

