-- ==== Sys2Proof/Machine/Ops.lean ====
section
/-! DEFINITION. The named operations: registers, the segment store's five operations, fault entry,
the two streams, and fetch. -/

namespace Sys2Proof.Machine

/-! ### Registers and pc (10_state.md R10, R12) -/

/-- `x[i]`, the read of a general register (00_scope.md R8). -/
def State.x (s : State) (i : Reg) : Word := s.regs[i]

/-- `x[i] <- v` (00_scope.md R8). No register is hard-wired (10_state.md R10). -/
def State.setX (s : State) (i : Reg) (v : Word) : State := { s with regs := s.regs.set i v }

/-- `pc <- target` (00_scope.md R8). -/
def State.setPc (s : State) (target : Word) : State := { s with pc := target }

/-! ### The cells of one segment (20_memory.md R31) -/

/-- The word at an offset: an unlisted cell is one never written since the map, and reads 0
("Contents are zero-initialized at map time", 20_memory.md R31). -/
def cellsRead : List (Nat × Word) → Nat → Word
  | [], _ => 0#32
  | (k, v) :: rest, off => if k = off then v else cellsRead rest off

/-- Writes one cell and keeps the canonical form: writing 0 removes the entry. -/
def cellsWrite : List (Nat × Word) → Nat → Word → List (Nat × Word)
  | [], off, v => if v = 0#32 then [] else [(off, v)]
  | (k, u) :: rest, off, v =>
    if off < k then (if v = 0#32 then (k, u) :: rest else (off, v) :: (k, u) :: rest)
    else if off = k then (if v = 0#32 then rest else (off, v) :: rest)
    else (k, u) :: cellsWrite rest off v

/-- The canonical form above a lower bound and below the length: offsets strictly rising, no word 0
listed. -/
def cellsWf (len : Nat) : Nat → List (Nat × Word) → Bool
  | _, [] => true
  | lo, (k, v) :: rest => decide (lo ≤ k) && decide (k < len) && decide (v ≠ 0#32) && cellsWf len (k + 1) rest

/-- The cells that hold the given words from an offset on. -/
def cellsOf : Nat → List Word → List (Nat × Word)
  | _, [] => []
  | k, w :: ws => if w = 0#32 then cellsOf (k + 1) ws else (k, w) :: cellsOf (k + 1) ws

/-- "segment of `length` words, all 0" (20_memory.md R34). -/
def Segment.zeroed (length : Word) : Segment := { len := length, cells := [] }

/-- The segment that holds a list of words in order (10_state.md R23). -/
def Segment.ofWords (ws : List Word) : Segment :=
  { len := BitVec.ofNat 32 ws.length, cells := cellsOf 0 ws }

/-- `w[off]` (10_state.md R18). -/
def Segment.read (g : Segment) (off : Word) : Word := cellsRead g.cells off.toNat

/-- `w[off] <- v`; the length stays (20_memory.md R31). -/
def Segment.write (g : Segment) (off v : Word) : Segment :=
  { g with cells := cellsWrite g.cells off.toNat v }

/-! ### The segment table (10_state.md R18; 20_memory.md R33) -/

/-- The empty store, before the loader maps segment 0 (70_reset_and_hazards.md R170). -/
def Memory.empty : Memory := { slots := [], pool := [] }

/-- table_size (10_state.md R18). -/
def Memory.tableSize (m : Memory) : Nat := m.slots.length

/-- The segment of an identifier, if it is mapped (20_memory.md R33, R40). -/
def Memory.segment? (m : Memory) (id : Word) : Option Segment :=
  match m.slots[id.toNat]? with
  | some (.segment g) => some g
  | some .tombstone => none
  | none => none

/-- `mapped(id)`: `id < table_size` and `slot[id]` is a segment (20_memory.md R33). -/
def Memory.mapped (m : Memory) (id : Word) : Bool := (m.segment? id).isSome

/-- `len(id)`, which exists for a mapped identifier only (00_scope.md R8). -/
def Memory.len? (m : Memory) (id : Word) : Option Word := (m.segment? id).map Segment.len

/-- `slot[id] <- …`; no other slot changes. -/
def Memory.putSlot (m : Memory) (id : Word) (slot : Slot) : Memory :=
  { m with slots := m.slots.set id.toNat slot }

/-- How many words the mapped segments hold, for the policy `upTo`. -/
def slotsWords : List Slot → Nat
  | [] => 0
  | .segment g :: rest => g.len.toNat + slotsWords rest
  | .tombstone :: rest => slotsWords rest

/-- `alloc_admits(store, length)`, "whether SEGCTL can allocate `length` more words now"
(00_scope.md R6, 20_memory.md R42; log 7). -/
def Memory.admits (p : Config.Params) (m : Memory) (length : Word) : Bool :=
  match p.alloc with
  | .always => true
  | .upTo words => decide (slotsWords m.slots + length.toNat ≤ words)
  | .host => Config.allocAdmits m length

/-! ### The five operations of SEGCTL (20_memory.md R34 to R38) -/

/-- `get(id, off)` (20_memory.md R36). The identifier is checked first. -/
def Memory.get (m : Memory) (id off : Word) : Except FaultCause Word :=
  match m.segment? id with
  | none => .error .unmappedSegment
  | some g => if g.len ≤ off then .error .offsetOutOfRange else .ok (g.read off)

/-- `set(id, off, v)` (20_memory.md R37). -/
def Memory.set (m : Memory) (id off v : Word) : Except FaultCause Memory :=
  match m.segment? id with
  | none => .error .unmappedSegment
  | some g =>
    if g.len ≤ off then .error .offsetOutOfRange else .ok (m.putSlot id (.segment (g.write off v)))

/-- `map(length)` (20_memory.md R34): the identifier at the top of the pool, else the table size.
"if table_size = MAX_SLOTS" reads here as MAX_SLOTS ≤ table_size, the same in every reachable state
(10_state.md R18; log 24). -/
def Memory.map (p : Config.Params) (m : Memory) (length : Word) : Except FaultCause (Word × Memory) :=
  if m.admits p length then
    match m.pool with
    | id :: rest =>
      .ok (id, { slots := m.slots.set id.toNat (.segment (.zeroed length)), pool := rest })
    | [] =>
      if p.maxSlots ≤ m.tableSize then .error .resourceExhausted
      else .ok (BitVec.ofNat 32 m.tableSize,
        { slots := m.slots ++ [.segment (.zeroed length)], pool := [] })
  else .error .resourceExhausted

/-- `unmap(id)` (20_memory.md R35): the slot becomes a tombstone, the identifier is pushed. -/
def Memory.unmap (m : Memory) (id : Word) : Except FaultCause Memory :=
  if id = 0#32 then .error .unmapZero
  else if m.mapped id then
    .ok { slots := m.slots.set id.toNat .tombstone, pool := id :: m.pool }
  else .error .unmapUnmapped

/-- `duplicate_to_zero(source_id)` (20_memory.md R38): the store after it and the length it returns.
With source 0 nothing is copied or allocated, and the one error is for a slot 0 that is not mapped,
which 10_state.md R20 rules out of every reachable state (log 21). -/
def Memory.duplicateToZero (p : Config.Params) (m : Memory) (src : Word) :
    Except FaultCause (Memory × Word) :=
  match m.segment? src with
  | none => .error .unmappedSegment
  | some g =>
    if src = 0#32 then .ok (m, g.len)
    else if m.admits p g.len then .ok (m.putSlot 0#32 (.segment g), g.len)
    else .error .resourceExhausted

/-! ### Fault entry (60_exceptions.md R150)

There is no return from a fault to stand beside it: "There is no return-from-trap instruction and
nothing to return to" (60_exceptions.md R153). -/

/-- `raise Fault(cause)`: the record is set from the instruction in execution and nothing else
changes. The state is then in status Faulted (60_exceptions.md R150; log 2). -/
def State.raise (s : State) (cause : FaultCause) : State :=
  { s with fault := some { cause := cause, addr := s.curAddr, word := s.curWord } }

/-- Ends an instruction whose operation may raise a fault: the fault and no other effect, or the
effect (40_instruction_cycle.md R86). -/
def State.orRaise {α : Type} (s : State) (result : Except FaultCause α) (effect : α → State) :
    Host.Outcome State Fault Refusal :=
  match result with
  | .error cause => .next (s.raise cause)
  | .ok a => .next (effect a)

/-! ### The streams (44_io.md R131, R133) -/

/-- `emit(b)`: out <- out followed by b (44_io.md R130, R131). -/
def State.emit (s : State) (b : Byte) : State := { s with out := s.out ++ [b] }

/-- `INPUT[pos]`, or end of input (44_io.md R133). An infinite INPUT has a byte everywhere. -/
def inputAt (input : Config.InputStream) (pos : Nat) : Option Byte :=
  match input with
  | .finite bytes => bytes[pos]?
  | .infinite known => some (known[pos]?.getD (Config.inputByte pos))

/-- What `next_input()` answers: the next byte, or none for EOF (44_io.md R133). -/
def State.nextInput (s : State) : Option Byte := inputAt s.params.input s.inPos

/-- `in_pos <- in_pos + 1` (44_io.md R132). -/
def State.consumeInput (s : State) : State := { s with inPos := s.inPos + 1 }

/-! ### Fetch (40_instruction_cycle.md R82, R83) -/

/-- `get(0, pc)`. -/
def State.fetch (s : State) : Except FaultCause Word := s.mem.get 0#32 s.pc

/-- After the fetch of w: a and w are held for the rest of the step, and pc is incremented before
the operation is applied (40_instruction_cycle.md R80, R82, R83). -/
def State.fetched (s : State) (w : Word) : State :=
  { s with pc := s.pc + 1#32, curAddr := s.pc, curWord := w }

/-- The store with segment 0 replaced by one that reaches past an offset and holds a word there; its
other cells stay. For `State.withFetchWord` alone (log 27). -/
def Memory.placeProgramWord (m : Memory) (off w : Word) : Memory :=
  let g := (m.segment? 0#32).getD (.zeroed 0#32)
  let g' := { g with len := if g.len ≤ off then off + 1#32 else g.len }
  match m.slots with
  | [] => { m with slots := [.segment (g'.write off w)] }
  | _ :: rest => { m with slots := .segment (g'.write off w) :: rest }

end Sys2Proof.Machine
end

