-- ==== Sys2Proof/Machine/Operands.lean ====
section
/-! DEFINITION. The operand forms: a general register (`State.x`, `State.setX` of Ops), the 25-bit
literal, a memory operand named by two registers, a byte to and from a register
(30_encoding.md R64; 00_scope.md R8). -/

namespace Sys2Proof.Machine

/-- `zext_32(literal)`: zero-extended, "not scaled, not shifted, not sign-extended"
(30_encoding.md R64). -/
def zextLiteral (literal : Nat) : Word := BitVec.ofNat 32 literal

/-- `zext_32(b)` of an input byte (44_io.md R132). -/
def zextByte (b : Byte) : Word := b.setWidth 32

/-- `v[7:0]`, the byte OUT emits (44_io.md R130). -/
def lowByte (v : Word) : Byte := v.setWidth 8

/-- `MemRead((x[id], x[off]), 32)` (00_scope.md R8, 42_segment_memory.md R110). -/
def State.memRead (s : State) (id off : Reg) : Except FaultCause Word :=
  s.mem.get (s.x id) (s.x off)

/-- `MemWrite((x[id], x[off]), 32, x[value])` (00_scope.md R8, 42_segment_memory.md R112). -/
def State.memWrite (s : State) (id off value : Reg) : Except FaultCause Memory :=
  s.mem.set (s.x id) (s.x off) (s.x value)

end Sys2Proof.Machine
end

