-- ==== Sys2Proof/Machine/Alu.lean ====
section
/-! DEFINITION. The ALU instructions (41_alu.md). Sources are read before the destination is written
(40_instruction_cycle.md R88), and pc already holds a + 1 (R83). -/

namespace Sys2Proof.Machine

/-- CMOV: `if x[C] != 0 then x[A] <- x[B]` (41_alu.md R100). -/
def execCmov (a b c : Reg) (s : State) : Host.Outcome State Fault Refusal :=
  .next (if s.x c ≠ 0#32 then s.setX a (s.x b) else s)

/-- ADD: `x[A] <- (x[B] + x[C]) mod 2^32` (41_alu.md R101). -/
def execAdd (a b c : Reg) (s : State) : Host.Outcome State Fault Refusal :=
  .next (s.setX a (s.x b + s.x c))

/-- MUL: `x[A] <- (x[B] * x[C]) mod 2^32` (41_alu.md R102). -/
def execMul (a b c : Reg) (s : State) : Host.Outcome State Fault Refusal :=
  .next (s.setX a (s.x b * s.x c))

/-- The unsigned quotient, or DivideByZero for divisor 0, whatever the dividend (41_alu.md R103;
90_conflicts.md C2). -/
def quotient (dividend divisor : Word) : Except FaultCause Word :=
  if divisor = 0#32 then .error .divideByZero else .ok (dividend / divisor)

/-- DIV: `x[A] <- x[B] div x[C]`, unsigned (41_alu.md R103). -/
def execDiv (a b c : Reg) (s : State) : Host.Outcome State Fault Refusal :=
  s.orRaise (quotient (s.x b) (s.x c)) (fun q => s.setX a q)

/-- NAND: `x[A] <- ~(x[B] & x[C])` (41_alu.md R104). -/
def execNand (a b c : Reg) (s : State) : Host.Outcome State Fault Refusal :=
  .next (s.setX a (~~~(s.x b &&& s.x c)))

/-- LOADV: `x[A] <- zext_32(literal)` (41_alu.md R105). -/
def execLoadv (a : Reg) (literal : Nat) (s : State) : Host.Outcome State Fault Refusal :=
  .next (s.setX a (zextLiteral literal))

end Sys2Proof.Machine
end

