-- ==== Sys2Proof/Machine/Flags.lean ====
section
/-! DEFINITION. The machine has no condition codes, no carry, overflow, zero or sign flag and no
status word, so no instruction computes a flag (10_state.md R16). "The only single-bit state is
`halted`" (R16): here are its one writer and the run status that is read from it. -/

namespace Sys2Proof.Machine

/-- `halted <- true` (10_state.md R13, 43_control.md R120). -/
def State.halt (s : State) : State := { s with halted := true }

/-- The run status, a function of the state (10_state.md R17). -/
def State.status (s : State) : RunStatus :=
  if s.fault ≠ none then .faulted
  else if s.halted then .halted
  else if s.programLength ≤ s.pc then .ended
  else .running

end Sys2Proof.Machine
end

