-- ==== Sys2Proof/Machine/Control.lean ====
section
/-! DEFINITION. The control instructions (43_control.md), and the two opcode values that are no
instruction (30_encoding.md R67). -/

namespace Sys2Proof.Machine

/-- HALT: `halted <- true` (43_control.md R120). "release all segments" is the teardown after the
end of the run (R121; log 8). -/
def execHalt (s : State) : Host.Outcome State Fault Refusal :=
  .next s.halt

/-- LOADPROG: `program_length <- duplicate_to_zero(x[B]) ; pc <- x[C]` (43_control.md R122). The
target is not checked (corner case (b)). -/
def execLoadprog (b c : Reg) (s : State) : Host.Outcome State Fault Refusal :=
  s.orRaise (s.mem.duplicateToZero s.params (s.x b))
    (fun r => State.setPc { s with mem := r.1, programLength := r.2 } (s.x c))

/-- Opcode value 14: `raise Fault(IllegalInstruction)` (30_encoding.md R67; 60_exceptions.md R142). -/
def execIllegal14 (s : State) : Host.Outcome State Fault Refusal :=
  .next (s.raise .illegalInstruction)

/-- Opcode value 15: `raise Fault(IllegalInstruction)` (30_encoding.md R67; 60_exceptions.md R142). -/
def execIllegal15 (s : State) : Host.Outcome State Fault Refusal :=
  .next (s.raise .illegalInstruction)

end Sys2Proof.Machine
end

