-- ==== Sys2Proof/Machine/InOut.lean ====
section
/-! DEFINITION. The input and output instructions (44_io.md). -/

namespace Sys2Proof.Machine

/-- The byte OUT may emit, or OutputRange above 255: "The value is not truncated to its low byte"
(44_io.md R130). -/
def outputByte (v : Word) : Except FaultCause Byte :=
  if 255#32 < v then .error .outputRange else .ok (lowByte v)

/-- OUT: emit x[C] (44_io.md R130). -/
def execOut (c : Reg) (s : State) : Host.Outcome State Fault Refusal :=
  s.orRaise (outputByte (s.x c)) (fun b => s.emit b)

/-- IN: the next byte zero-extended, or 0xFFFFFFFF at end of input, which consumes nothing
(44_io.md R132). -/
def execIn (c : Reg) (s : State) : Host.Outcome State Fault Refusal :=
  match s.nextInput with
  | none => .next (s.setX c 4294967295#32)
  | some b => .next (s.consumeInput.setX c (zextByte b))

end Sys2Proof.Machine
end

