-- ==== Sys2Proof/Machine/SegMem.lean ====
section
/-! DEFINITION. The segment memory instructions (42_segment_memory.md). -/

namespace Sys2Proof.Machine

/-- SLOAD: `x[A] <- MemRead((x[B], x[C]), 32)` (42_segment_memory.md R110). -/
def execSload (a b c : Reg) (s : State) : Host.Outcome State Fault Refusal :=
  s.orRaise (s.memRead b c) (fun v => s.setX a v)

/-- SSTORE: `MemWrite((x[A], x[B]), 32, x[C])` (42_segment_memory.md R112). -/
def execSstore (a b c : Reg) (s : State) : Host.Outcome State Fault Refusal :=
  s.orRaise (s.memWrite a b c) (fun m => { s with mem := m })

/-- MAP: `x[B] <- map(x[C])` (42_segment_memory.md R114). -/
def execMap (b c : Reg) (s : State) : Host.Outcome State Fault Refusal :=
  s.orRaise (s.mem.map s.params (s.x c)) (fun r => State.setX { s with mem := r.2 } b r.1)

/-- UNMAP: `unmap(x[C])` (42_segment_memory.md R116). -/
def execUnmap (c : Reg) (s : State) : Host.Outcome State Fault Refusal :=
  s.orRaise (s.mem.unmap (s.x c)) (fun m => { s with mem := m })

end Sys2Proof.Machine
end

