-- ==== Sys2Proof/Machine/Step.lean ====
section
/-! DEFINITION. One step of the machine: the instruction cycle (40_instruction_cycle.md). -/

namespace Sys2Proof.Machine

/-- One step, in the order of 40_instruction_cycle.md R80: the run test (R81), the fetch (R82), the
increment of pc (R83), decode (R84), execution (R85). "A step is defined only in run status
Running"; in a terminal status it is a stop with a name (log 2). -/
def step (s : State) : Host.Outcome State Fault Refusal :=
  match s.fault with
  | some r => .fault (.runFaulted r)
  | none =>
    if s.halted then .fault .runHalted
    else if s.programLength ≤ s.pc then .fault .runEnded
    else
      match s.fetch with
      | .error _ => .refused .programLengthNotLengthOfSegmentZero
      | .ok w => exec (decode w) (s.fetched w)

/-- s with an instruction word placed where the next step fetches: cell (0, pc) of segment 0, which
grows to hold it, with the program length following it and a terminal status cleared. It stands for
the load of a program from outside (log 1, 27). No cell exists at pc = 2^32 - 1 (10_state.md R12), so
there the word is placed at 0. -/
def State.withFetchWord (s : State) (nbits w : Nat) : State :=
  let at' : Word := if s.pc = 4294967295#32 then 0#32 else s.pc
  let m := s.mem.placeProgramWord at' (BitVec.ofNat 32 (w % 2 ^ nbits))
  { s with
    pc := at'
    halted := false
    fault := none
    mem := m
    programLength := (m.len? 0#32).getD 0#32 }

end Sys2Proof.Machine
end

