-- ==== Sys2Proof/Machine/Boundary.lean ====
section
/-! DEFINITION. The host's side of a run (00_scope.md R7): IF-LOAD and IF-RESET, IF-STATUS, what of
the output is delivered, the teardown. No step performs any of these. -/

namespace Sys2Proof.Machine

/-- The words of a program file, "A sequence of 32-bit big-endian words, tightly packed"
(70_reset_and_hazards.md R172; 20_memory.md R46 (a)). A length that is no multiple of 4 has no
words: the spec refuses such a file (93_implementation_defined.md U16; log 23). -/
def wordsOfFile : List Byte → Option (List Word)
  | [] => some []
  | b0 :: b1 :: b2 :: b3 :: rest =>
    match wordsOfFile rest with
    | some ws => some (wordOfBytes b0 b1 b2 b3 :: ws)
    | none => none
  | _ => none

/-- The reset event with a program on IF-LOAD (70_reset_and_hazards.md R170 to R172), from whatever
state: every reset discards all earlier state (R171; log 15). No state results, and no run begins,
for a program of 2^32 words or more (92_eei_decisions.md D11) or where the capacity parameters refuse
the loader's map (log 28). -/
def State.load (p : Config.Params) (program : List Word) : Option State :=
  if program.length < 4294967296 then
    match Memory.empty.map p (BitVec.ofNat 32 program.length) with
    | .error _ => none
    | .ok (id, m) =>
      some
        { regs := Vector.replicate 8 0#32
          pc := 0#32
          halted := false
          programLength := BitVec.ofNat 32 program.length
          fault := none
          mem := m.putSlot id (.segment (.ofWords program))
          out := []
          inPos := 0
          params := p
          curAddr := 0#32
          curWord := 0#32 }
  else none

/-- The code of a cause (60_exceptions.md R141; the numbers are the spec's own, D5). -/
def FaultCause.code : FaultCause → Nat
  | .illegalInstruction => 1
  | .divideByZero => 2
  | .outputRange => 3
  | .unmappedSegment => 4
  | .offsetOutOfRange => 5
  | .unmapZero => 6
  | .unmapUnmapped => 7
  | .resourceExhausted => 8

/-- The exit status on IF-STATUS, none while the run goes on: 0 for Halted and Ended, EXIT_NONZERO
for Faulted (60_exceptions.md R158; log 11). -/
def State.exitStatus (s : State) : Option Nat :=
  match s.status with
  | .running => none
  | .halted => some 0
  | .ended => some 0
  | .faulted => some Config.exitNonzero

/-- The output the host has received at the end of a run: the whole of `out` on a normal end, and
any prefix of it, freely chosen, on a faulted run (93_implementation_defined.md U6; log 10). -/
def State.delivered (s : State) : Option (List Byte) :=
  match s.status with
  | .running => none
  | .halted => some s.out
  | .ended => some s.out
  | .faulted => some (s.out.take (Config.deliveredOnFault s.out))

/-- The teardown that follows the final state of a normally ended run: "`table <- empty; pool <-
empty`" (70_reset_and_hazards.md R181; log 8). It is no instruction and no step. -/
def State.teardown (s : State) : State := { s with mem := Memory.empty }

end Sys2Proof.Machine
end

