-- ==== Sys2Proof/Machine/Invariant.lean ====
section
/-! DEFINITION. The canonical form of memory, and the invariant of the reachable states
(10_state.md R14, R18 to R20, R24). -/

namespace Sys2Proof.Machine

/-- A slot in canonical form: its listed cells rise strictly, lie below the length and hold no 0. -/
def slotWf : Slot → Bool
  | .segment g => cellsWf g.len.toNat 0 g.cells
  | .tombstone => true

/-- The canonical form: equal stores are equal data (log 17). -/
def Memory.wf (m : Memory) : Bool := m.slots.all slotWf

/-- The invariants of the segment store "true in every state between instructions"
(10_state.md R20), with the canonical form. -/
structure Memory.Sound (m : Memory) : Prop where
  /-- The canonical form. -/
  canonical : m.wf = true
  /-- "Identifier 0 always exists for the lifetime of an execution" (R20 (a)). -/
  zeroMapped : m.mapped 0#32 = true
  /-- An identifier is in the pool "once" (R20 (b)). -/
  poolOnce : m.pool.Nodup
  /-- "The recycle pool contains exactly the set of tombstoned slots" (R20 (b)). -/
  poolTombstones : ∀ id : Word, id ∈ m.pool ↔ m.slots[id.toNat]? = some .tombstone

/-- The parameters are ones the spec allows: MAX_SLOTS is at most 2^32 (00_scope.md R6), and at least
1, since segment 0 takes a slot. -/
abbrev ParamsOk (p : Config.Params) : Prop := 1 ≤ p.maxSlots ∧ p.maxSlots ≤ 4294967296

/-- The invariant of the reachable states. -/
structure State.Inv (s : State) : Prop where
  params : ParamsOk s.params
  store : s.mem.Sound
  /-- `table_size` is "a value in 0..MAX_SLOTS" (10_state.md R18). -/
  tableSize : s.mem.tableSize ≤ s.params.maxSlots
  /-- `program_length = len(0)` (10_state.md R14). -/
  programLength : s.mem.len? 0#32 = some s.programLength
  /-- No more input is consumed than there is (10_state.md R21 (b)). -/
  input : ∀ bytes, s.params.input = .finite bytes → s.inPos ≤ bytes.length
  /-- "A faulted run is not halted" (60_exceptions.md R151). -/
  faultNotHalted : s.fault ≠ none → s.halted = false
  /-- The record's addr is "equal to pc - 1 at the time of the fault" (60_exceptions.md R141). -/
  faultAddr : ∀ r, s.fault = some r → s.pc = r.addr + 1#32
  /-- The record's word is the word of segment 0 at its addr (10_state.md R15). -/
  faultWord : ∀ r, s.fault = some r → s.mem.get 0#32 r.addr = .ok r.word

end Sys2Proof.Machine
end

