-- ==== Sys2Proof/Safety.lean ====
section
/-! DEFINITION. The terms claims are stated in: runs and their ends, which registers an instruction
names, and what stays unchanged. -/

namespace Sys2Proof

/-- The register an instruction may write (10_state.md R11, column Writes). -/
def Instr.dest : Instr → Option Reg
  | .cmov a _ _ => some a
  | .sload a _ _ => some a
  | .sstore _ _ _ => none
  | .add a _ _ => some a
  | .mul a _ _ => some a
  | .div a _ _ => some a
  | .nand a _ _ => some a
  | .halt => none
  | .map b _ => some b
  | .unmap _ => none
  | .out _ => none
  | .inp c => some c
  | .loadprog _ _ => none
  | .loadv a _ => some a
  | .illegal14 => none
  | .illegal15 => none

/-- The registers an instruction reads (10_state.md R11, column Reads). -/
def Instr.reads : Instr → List Reg
  | .cmov _ b c => [b, c]
  | .sload _ b c => [b, c]
  | .sstore a b c => [a, b, c]
  | .add _ b c => [b, c]
  | .mul _ b c => [b, c]
  | .div _ b c => [b, c]
  | .nand _ b c => [b, c]
  | .halt => []
  | .map _ c => [c]
  | .unmap c => [c]
  | .out c => [c]
  | .inp _ => []
  | .loadprog b c => [b, c]
  | .loadv _ _ => []
  | .illegal14 => []
  | .illegal15 => []

end Sys2Proof

namespace Sys2Proof.Machine

/-- t is reached from s by some number of steps. -/
inductive Runs : State → State → Prop where
  | refl (s : State) : Runs s s
  | step {s t u : State} (first : Runs s t) (last : Machine.step t = .next u) : Runs s u

/-- A safe run has not faulted: "A model treats Faulted as a failure, never as a normal end"
(60_exceptions.md R151). -/
def State.Safe (s : State) : Prop := s.status ≠ .faulted

/-- A normal end: a HALT, or running off the end of segment 0 (10_state.md R17). A claim that an
out-of-range jump must not satisfy requires Halted alone (log 5). -/
def State.NormalEnd (s : State) : Prop := s.status = .halted ∨ s.status = .ended

/-- Every register is unchanged. -/
def SameRegs (s t : State) : Prop := ∀ r, t.x r = s.x r

/-- Every register but one is unchanged. -/
def SameRegsBut (a : Reg) (s t : State) : Prop := ∀ r, r ≠ a → t.x r = s.x r

/-- The segment store is unchanged: every cell reads as before (an access that faulted faults as
before), every length, the table size and the pool are as before. -/
structure SameStore (s t : State) : Prop where
  cells : ∀ id off, t.mem.get id off = s.mem.get id off
  lens : ∀ id, t.mem.len? id = s.mem.len? id
  tableSize : t.mem.tableSize = s.mem.tableSize
  pool : t.mem.pool = s.mem.pool

/-- The halted flag, the program length, the fault record and the step's own address and word are
unchanged. -/
structure SameControl (s t : State) : Prop where
  halted : t.halted = s.halted
  programLength : t.programLength = s.programLength
  fault : t.fault = s.fault
  curAddr : t.curAddr = s.curAddr
  curWord : t.curWord = s.curWord

/-- The two streams and the parameters are unchanged. -/
structure SameStreams (s t : State) : Prop where
  out : t.out = s.out
  inPos : t.inPos = s.inPos
  params : t.params = s.params

/-- The frame of an instruction that writes one register and nothing else: pc stays at the a + 1 of
the fetch (40_instruction_cycle.md R83). -/
structure OnlyWrites (a : Reg) (s t : State) : Prop where
  regs : SameRegsBut a s t
  pc : t.pc = s.pc
  store : SameStore s t
  control : SameControl s t
  streams : SameStreams s t

/-- The effect of `raise Fault(cause)`: the record is set from the instruction in execution, and
everything else is unchanged (60_exceptions.md R150). -/
structure Raised (cause : FaultCause) (s t : State) : Prop where
  fault : t.fault = some { cause := cause, addr := s.curAddr, word := s.curWord }
  status : t.status = .faulted
  regs : SameRegs s t
  pc : t.pc = s.pc
  store : SameStore s t
  halted : t.halted = s.halted
  programLength : t.programLength = s.programLength
  curAddr : t.curAddr = s.curAddr
  curWord : t.curWord = s.curWord
  streams : SameStreams s t

end Sys2Proof.Machine

namespace Sys2Proof

/-- A word of format R3 with any value in its ignored bits 27..9 (30_encoding.md R61). -/
def wordR3 (op ignored a b c : Nat) : Word :=
  BitVec.ofNat 32 (op * 2 ^ 28 + ignored * 2 ^ 9 + a * 2 ^ 6 + b * 2 ^ 3 + c)

/-- The four bytes of a word in file order, big-endian (20_memory.md R46 (a)). -/
def fileBytes (w : Word) : List Byte :=
  [BitVec.ofNat 8 (w.toNat / 2 ^ 24), BitVec.ofNat 8 (w.toNat / 2 ^ 16),
    BitVec.ofNat 8 (w.toNat / 2 ^ 8), BitVec.ofNat 8 w.toNat]

end Sys2Proof
end

