-- ==== Sys2Proof/WellFormed.lean ====
section
/-! DEFINITION. Which instruction terms an encoding exists for. -/

namespace Sys2Proof

/-- A literal that the 25-bit field holds: "0 <= literal < 2^25" (30_encoding.md R62, R70). -/
def literalFits (literal : Nat) : Bool := decide (literal < 33554432)

/-- The instruction can be encoded. A register field has three bits and every index names a register
(10_state.md R10), so `Reg` needs no check; the one operand that can be out of range is LOADV's
literal. The opcode values 14 and 15 are encodable words, though not instructions (R67). -/
def WellFormed : Instr → Bool
  | .cmov _ _ _ => true
  | .sload _ _ _ => true
  | .sstore _ _ _ => true
  | .add _ _ _ => true
  | .mul _ _ _ => true
  | .div _ _ _ => true
  | .nand _ _ _ => true
  | .halt => true
  | .map _ _ => true
  | .unmap _ => true
  | .out _ => true
  | .inp _ => true
  | .loadprog _ _ => true
  | .loadv _ literal => literalFits literal
  | .illegal14 => true
  | .illegal15 => true

end Sys2Proof
end

