-- ==== Sys2Proof/Certificates/Slice0/Obligations.lean ====
section
/-! DEFINITION. The statements for the provers. Each cites the rules of spec/ it formalises; where a
clause rests on a decision of the spec's own (92_eei_decisions.md) or of the model's, its docstring
names it. -/

open Sys2Proof Sys2Proof.Machine

/-! ### Encoding -/

/-- The thirteen words of 95_test_vectors.md section 2.1, and one canonical word of 30_encoding.md R70 for each
other opcode, decode to the instruction they stand for. -/
def Obligations.SpecTableWordsDecode : Prop :=
  decode 0x00000000#32 = .cmov 0 0 0 ∧
  decode 0x300001A5#32 = .add 6 4 5 ∧
  decode 0x3FFFFFFF#32 = .add 7 7 7 ∧
  decode 0x2000010D#32 = .sstore 4 1 5 ∧
  decode 0x7ABCDE12#32 = .halt ∧
  decode 0x80000035#32 = .map 6 5 ∧
  decode 0xC0000030#32 = .loadprog 6 0 ∧
  decode 0xD1FFFFFF#32 = .loadv 0 0x1FFFFFF ∧
  decode 0xDE00002A#32 = .loadv 7 42 ∧
  decode 0xDFFFFFFF#32 = .loadv 7 0x1FFFFFF ∧
  decode 0xD0000000#32 = .loadv 0 0 ∧
  decode 0xE0000000#32 = .illegal14 ∧
  decode 0xFFFFFFFF#32 = .illegal15 ∧
  decode 0x10000053#32 = .sload 1 2 3 ∧
  decode 0x40000053#32 = .mul 1 2 3 ∧
  decode 0x50000053#32 = .div 1 2 3 ∧
  decode 0x60000053#32 = .nand 1 2 3 ∧
  decode 0x90000003#32 = .unmap 3 ∧
  decode 0xA0000001#32 = .out 1 ∧
  decode 0xB0000001#32 = .inp 1

/-- Decoding the word of a well-formed instruction gives it back, whatever its operands. -/
def Obligations.DecodeOfEncodeIsTheInstruction : Prop :=
  ∀ i : Instr, WellFormed i = true → decode (encode i) = i

/-- Format R3 (30_encoding.md R61): "register A in bits 6-8, register B in bits 3-5, register C in
bits 0-2; bits 9-27 are unused and ignored", for every opcode 0 to 12, every register and every value
of the ignored bits; and the fields are the operands of the instruction decoded. Fields an operation
does not name are 0 in the list of decodings; the next statement is theirs. -/
def Obligations.ThreeRegisterFormatDecodes : Prop :=
  ∀ (a b c : Reg) (ignored : Nat), ignored < 2 ^ 19 →
    (∀ op, op ≤ 12 → opField (wordR3 op ignored a b c) = op ∧ fieldA (wordR3 op ignored a b c) = a ∧
      fieldB (wordR3 op ignored a b c) = b ∧ fieldC (wordR3 op ignored a b c) = c) ∧
    decode (wordR3 0 ignored a b c) = .cmov a b c ∧
    decode (wordR3 1 ignored a b c) = .sload a b c ∧
    decode (wordR3 2 ignored a b c) = .sstore a b c ∧
    decode (wordR3 3 ignored a b c) = .add a b c ∧
    decode (wordR3 4 ignored a b c) = .mul a b c ∧
    decode (wordR3 5 ignored a b c) = .div a b c ∧
    decode (wordR3 6 ignored a b c) = .nand a b c ∧
    decode (wordR3 7 ignored 0 0 0) = .halt ∧
    decode (wordR3 8 ignored 0 b c) = .map b c ∧
    decode (wordR3 9 ignored 0 0 c) = .unmap c ∧
    decode (wordR3 10 ignored 0 0 c) = .out c ∧
    decode (wordR3 11 ignored 0 0 c) = .inp c ∧
    decode (wordR3 12 ignored 0 b c) = .loadprog b c

/-- A register field that the operation does not name is ignored. The spec's own decision D14
(30_encoding.md R66; log 12). -/
def Obligations.UnusedRegisterFieldsAreIgnored : Prop :=
  ∀ (a b c : Reg) (ignored : Nat), ignored < 2 ^ 19 →
    decode (wordR3 7 ignored a b c) = .halt ∧
    decode (wordR3 8 ignored a b c) = .map b c ∧
    decode (wordR3 9 ignored a b c) = .unmap c ∧
    decode (wordR3 10 ignored a b c) = .out c ∧
    decode (wordR3 11 ignored a b c) = .inp c ∧
    decode (wordR3 12 ignored a b c) = .loadprog b c

/-- Format LV (30_encoding.md R62): "register A occupies bits 25-27 and the 25-bit literal occupies
bits 0-24", and the format has no ignored bit: different words are different instructions. -/
def Obligations.LoadValueFormatDecodes : Prop :=
  (∀ (a : Reg) (literal : Nat), literal < 2 ^ 25 →
    decode (BitVec.ofNat 32 (13 * 2 ^ 28 + a * 2 ^ 25 + literal)) = .loadv a literal) ∧
  (∀ w w' : Word, opField w = 13 → decode w = decode w' → w = w')

/-- A row of the opcode map is selected when `w & mask = match` (30_encoding.md R65), mask 0xF0000000
and match op * 2^28 in every row. -/
def Obligations.MaskAndMatchSelectTheRow : Prop :=
  ∀ (w : Word) (op : Nat), op < 16 →
    (w &&& 0xF0000000#32 = BitVec.ofNat 32 (op * 2 ^ 28) ↔ (decode w).opcode = op)

/-! ### Reset and loading -/

/-- The state after reset (10_state.md R23), for every PROGRAM and every parameters under which
the loader's map is admitted: every register 0, pc 0, segment 0 holding the program in order, nothing
else mapped. The step's own curAddr and curWord are the model's (log 19) and are left out. -/
def Obligations.LoadedMachineIsTheResetState : Prop :=
  ∀ (p : Config.Params) (program : List Word),
    program.length < 2 ^ 32 → 1 ≤ p.maxSlots →
    Memory.empty.admits p (BitVec.ofNat 32 program.length) = true →
    ∃ s, State.load p program = some s ∧
      (∀ r, s.x r = 0#32) ∧ s.pc = 0#32 ∧ s.halted = false ∧
      s.programLength.toNat = program.length ∧ s.fault = none ∧
      s.mem.tableSize = 1 ∧ s.mem.len? 0#32 = some s.programLength ∧
      (∀ (off : Word) (w : Word), program[off.toNat]? = some w → s.mem.get 0#32 off = .ok w) ∧
      s.mem.pool = [] ∧ s.out = [] ∧ s.inPos = 0 ∧ s.params = p ∧
      s.status = if program = [] then .ended else .running

/-- The words of a program file are its big-endian words in order, and a file whose length is no
multiple of 4 has none. That such a file is turned away is the model's reading of U16 (log 23). -/
def Obligations.ProgramFileIsBigEndianWords : Prop :=
  (∀ program : List Word, wordsOfFile (program.flatMap fileBytes) = some program) ∧
  (∀ file : List Byte, file.length % 4 ≠ 0 → wordsOfFile file = none)

/-- "after reset, with no unmap yet, successive maps return 1, 2, 3, ..." (20_memory.md R39 (a)), here
the first two, each of any length and with operands of its own: s has the store and the parameters of
a loaded machine, and any registers. Under the default capacity (the spec's own decision D7; log 7). -/
def Obligations.FirstMapsAfterResetReturnOneThenTwo : Prop :=
  ∀ (p : Config.Params) (program : List Word) (loaded s : State) (b c b' c' : Reg),
    p.alloc = .always → 3 ≤ p.maxSlots → State.load p program = some loaded →
    s.mem = loaded.mem → s.params = p →
    ∃ t, exec (.map b c) s = .next t ∧ t.x b = 1#32 ∧
      ∃ u, exec (.map b' c') t = .next u ∧ u.x b' = 2#32

/-! ### ALU instructions -/

/-- CMOV (41_alu.md R100): x[A] becomes x[B] exactly when x[C] is not 0; nothing else changes. -/
def Obligations.CmovMovesIfConditionNonZero : Prop :=
  ∀ (a b c : Reg) (s : State), ∃ t, exec (.cmov a b c) s = .next t ∧ OnlyWrites a s t ∧
    (s.x c ≠ 0#32 → t.x a = s.x b) ∧ (s.x c = 0#32 → t.x a = s.x a)

/-- ADD (41_alu.md R101): x[A] is the sum modulo 2^32; nothing else changes and nothing faults. -/
def Obligations.AddWritesSumModulo : Prop :=
  ∀ (a b c : Reg) (s : State), ∃ t, exec (.add a b c) s = .next t ∧ OnlyWrites a s t ∧
    (t.x a).toNat = ((s.x b).toNat + (s.x c).toNat) % 2 ^ 32

/-- MUL (41_alu.md R102): x[A] is the product modulo 2^32; nothing else changes and nothing faults. -/
def Obligations.MulWritesProductModulo : Prop :=
  ∀ (a b c : Reg) (s : State), ∃ t, exec (.mul a b c) s = .next t ∧ OnlyWrites a s t ∧
    (t.x a).toNat = ((s.x b).toNat * (s.x c).toNat) % 2 ^ 32

/-- DIV with a divisor other than 0 (41_alu.md R103): x[A] is the "greatest q with q * x[C] <= x[B]",
unsigned; nothing else changes. -/
def Obligations.DivWritesGreatestQuotient : Prop :=
  ∀ (a b c : Reg) (s : State), s.x c ≠ 0#32 →
    ∃ t, exec (.div a b c) s = .next t ∧ OnlyWrites a s t ∧
      (t.x a).toNat * (s.x c).toNat ≤ (s.x b).toNat ∧
      ∀ q : Nat, q * (s.x c).toNat ≤ (s.x b).toNat → q ≤ (t.x a).toNat

/-- DIV with divisor 0 faults whatever the dividend is, and writes nothing (41_alu.md R103). The
spec's own decisions D3 and D5 (log 4, 20). -/
def Obligations.DivByZeroFaults : Prop :=
  ∀ (a b c : Reg) (s : State), s.x c = 0#32 →
    ∃ t, exec (.div a b c) s = .next t ∧ Raised .divideByZero s t

/-- NAND (41_alu.md R104): "bit i of the result is 1 unless bit i of both sources is 1", on all 32
bits; nothing else changes and nothing faults. -/
def Obligations.NandWritesNotOfAnd : Prop :=
  ∀ (a b c : Reg) (s : State), ∃ t, exec (.nand a b c) s = .next t ∧ OnlyWrites a s t ∧
    ∀ j, j < 32 → (t.x a).getLsbD j = !((s.x b).getLsbD j && (s.x c).getLsbD j)

/-- LOADV (41_alu.md R105): x[A] is the literal, for every literal the field holds; the upper bits
become 0; nothing else changes and nothing faults. -/
def Obligations.LoadvWritesTheLiteral : Prop :=
  ∀ (a : Reg) (literal : Nat) (s : State), WellFormed (.loadv a literal) = true →
    ∃ t, exec (.loadv a literal) s = .next t ∧ OnlyWrites a s t ∧ (t.x a).toNat = literal

/-! ### The segment store and its instructions -/

/-- `get` (20_memory.md R36): the identifier is checked first, then the offset, then the word is
returned. -/
def Obligations.GetChecksIdentifierThenOffset : Prop :=
  ∀ (m : Memory) (id off : Word),
    (m.mapped id = false → m.get id off = .error .unmappedSegment) ∧
    (∀ g, m.segment? id = some g →
      (g.len ≤ off → m.get id off = .error .offsetOutOfRange) ∧
      (off < g.len → m.get id off = .ok (g.read off)))

/-- SLOAD of a cell that exists (42_segment_memory.md R110): x[A] is its word; nothing else changes. -/
def Obligations.SloadWritesTheCell : Prop :=
  ∀ (a b c : Reg) (s : State) (n : Word), s.mem.len? (s.x b) = some n → s.x c < n →
    ∃ t v, exec (.sload a b c) s = .next t ∧ s.mem.get (s.x b) (s.x c) = .ok v ∧
      t.x a = v ∧ OnlyWrites a s t

/-- SSTORE to a cell that exists (42_segment_memory.md R112): the cell (x[A], x[B]) holds x[C], every
other cell of the store reads as before (an access that faulted faults as before), and nothing else
changes. The premise is the canonical form, which every run keeps. -/
def Obligations.SstoreWritesOneCell : Prop :=
  ∀ (a b c : Reg) (s : State) (n : Word), s.mem.wf = true →
    s.mem.len? (s.x a) = some n → s.x b < n →
    ∃ t, exec (.sstore a b c) s = .next t ∧
      t.mem.get (s.x a) (s.x b) = .ok (s.x c) ∧
      (∀ id off, ¬(id = s.x a ∧ off = s.x b) → t.mem.get id off = s.mem.get id off) ∧
      (∀ id, t.mem.len? id = s.mem.len? id) ∧
      t.mem.tableSize = s.mem.tableSize ∧ t.mem.pool = s.mem.pool ∧
      SameRegs s t ∧ t.pc = s.pc ∧ SameControl s t ∧ SameStreams s t

/-- SLOAD and SSTORE through an identifier that is not mapped, or at or past the segment's length,
fault and have no other effect (42_segment_memory.md R110, R112). The fault record is the spec's own
decision D5 (log 20). -/
def Obligations.LoadAndStoreOutsideTheStoreFault : Prop :=
  ∀ (a b c : Reg) (s : State),
    (s.mem.mapped (s.x b) = false →
      ∃ t, exec (.sload a b c) s = .next t ∧ Raised .unmappedSegment s t) ∧
    (∀ n, s.mem.len? (s.x b) = some n → n ≤ s.x c →
      ∃ t, exec (.sload a b c) s = .next t ∧ Raised .offsetOutOfRange s t) ∧
    (s.mem.mapped (s.x a) = false →
      ∃ t, exec (.sstore a b c) s = .next t ∧ Raised .unmappedSegment s t) ∧
    (∀ n, s.mem.len? (s.x a) = some n → n ≤ s.x b →
      ∃ t, exec (.sstore a b c) s = .next t ∧ Raised .offsetOutOfRange s t)

/-- "Store then load at the same (id, offset) is the identity" (20_memory.md R45), as two
instructions: SSTORE xA, xB, xC then SLOAD xD, xA, xB puts the value stored into x[D]. -/
def Obligations.StoreThenLoadIsTheIdentity : Prop :=
  ∀ (a b c d : Reg) (s : State) (n : Word), s.mem.wf = true →
    s.mem.len? (s.x a) = some n → s.x b < n →
    ∃ t u, exec (.sstore a b c) s = .next t ∧ exec (.sload d a b) t = .next u ∧
      u.x d = s.x c ∧ OnlyWrites d t u

/-- MAP with an identifier in the pool (42_segment_memory.md R114, 20_memory.md R34): the top one is
reused, its segment has the length asked for and reads 0 everywhere, whatever was there before; no
other segment changes. The capacity check is the spec's own decision D7 (log 7). -/
def Obligations.MapReusesTheLastUnmapped : Prop :=
  ∀ (b c : Reg) (s : State) (id : Word) (rest : List Word), s.mem.Sound →
    s.mem.pool = id :: rest → s.mem.admits s.params (s.x c) = true →
    ∃ t, exec (.map b c) s = .next t ∧ t.x b = id ∧ SameRegsBut b s t ∧
      t.mem.len? id = some (s.x c) ∧ (∀ off, off < s.x c → t.mem.get id off = .ok 0#32) ∧
      (∀ j, j ≠ id → t.mem.len? j = s.mem.len? j ∧ ∀ off, t.mem.get j off = s.mem.get j off) ∧
      t.mem.pool = rest ∧ t.mem.tableSize = s.mem.tableSize ∧
      t.pc = s.pc ∧ SameControl s t ∧ SameStreams s t

/-- MAP with an empty pool (20_memory.md R34): the identifier is the table size, a new slot is
appended with a segment of zeros of the length asked for, and no other segment changes. The capacity
checks are the spec's own decision D7 (log 7). -/
def Obligations.MapAppendsWhenThePoolIsEmpty : Prop :=
  ∀ (b c : Reg) (s : State), s.params.maxSlots ≤ 2 ^ 32 →
    s.mem.pool = [] → s.mem.tableSize < s.params.maxSlots →
    s.mem.admits s.params (s.x c) = true →
    ∃ t, exec (.map b c) s = .next t ∧ (t.x b).toNat = s.mem.tableSize ∧ SameRegsBut b s t ∧
      t.mem.len? (t.x b) = some (s.x c) ∧
      (∀ off, off < s.x c → t.mem.get (t.x b) off = .ok 0#32) ∧
      (∀ j, j ≠ t.x b → t.mem.len? j = s.mem.len? j ∧ ∀ off, t.mem.get j off = s.mem.get j off) ∧
      t.mem.pool = [] ∧ t.mem.tableSize = s.mem.tableSize + 1 ∧
      t.pc = s.pc ∧ SameControl s t ∧ SameStreams s t

/-- MAP where the capacity parameters refuse faults and has no other effect. The spec's own decision
D7 (20_memory.md R42, 60_exceptions.md R149; log 7). -/
def Obligations.MapRefusedByCapacityFaults : Prop :=
  ∀ (b c : Reg) (s : State),
    (s.mem.admits s.params (s.x c) = false ∨
      (s.mem.pool = [] ∧ s.params.maxSlots ≤ s.mem.tableSize)) →
    ∃ t, exec (.map b c) s = .next t ∧ Raised .resourceExhausted s t

/-- UNMAP of a mapped identifier other than 0 (42_segment_memory.md R116, 20_memory.md R35): every
access through it faults, it is on top of the pool, and nothing else changes. -/
def Obligations.UnmapReleasesTheSegment : Prop :=
  ∀ (c : Reg) (s : State), s.x c ≠ 0#32 → s.mem.mapped (s.x c) = true →
    ∃ t, exec (.unmap c) s = .next t ∧ t.mem.mapped (s.x c) = false ∧
      (∀ off, t.mem.get (s.x c) off = .error .unmappedSegment) ∧
      (∀ j, j ≠ s.x c → t.mem.len? j = s.mem.len? j ∧ ∀ off, t.mem.get j off = s.mem.get j off) ∧
      t.mem.pool = s.x c :: s.mem.pool ∧ t.mem.tableSize = s.mem.tableSize ∧
      SameRegs s t ∧ t.pc = s.pc ∧ SameControl s t ∧ SameStreams s t

/-- UNMAP of identifier 0, and of any other identifier that is not mapped, faults and changes neither
table nor pool (42_segment_memory.md R116). The fault record is the spec's own decision D5 (log 20). -/
def Obligations.UnmapOfZeroOrUnmappedFaults : Prop :=
  ∀ (c : Reg) (s : State),
    (s.x c = 0#32 → ∃ t, exec (.unmap c) s = .next t ∧ Raised .unmapZero s t) ∧
    (s.x c ≠ 0#32 → s.mem.mapped (s.x c) = false →
      ∃ t, exec (.unmap c) s = .next t ∧ Raised .unmapUnmapped s t)

/-- "after `unmap(a)` then `unmap(b)`, the next two maps return b, then a" (20_memory.md R39 (b)),
under the default capacity (log 7). -/
def Obligations.UnmappedIdentifiersComeBackLastFirst : Prop :=
  ∀ (c c' b d : Reg) (s : State), s.mem.Sound → s.params.alloc = .always →
    s.x c ≠ 0#32 → s.x c' ≠ 0#32 → s.x c ≠ s.x c' →
    s.mem.mapped (s.x c) = true → s.mem.mapped (s.x c') = true →
    ∃ s1 s2 s3 s4,
      exec (.unmap c) s = .next s1 ∧ exec (.unmap c') s1 = .next s2 ∧
      exec (.map b d) s2 = .next s3 ∧ s3.x b = s.x c' ∧
      exec (.map b d) s3 = .next s4 ∧ s4.x b = s.x c

/-- "No stale word of a released segment is ever visible" (20_memory.md R44): after UNMAP every access
through the identifier faults, and when the next MAP, of any length, hands it out again, every cell of
it reads 0 and the length is the newly requested one. -/
def Obligations.NoStaleWordAfterReuse : Prop :=
  ∀ (b c d : Reg) (s t u : State), s.fault = none → s.mem.Sound →
    exec (.unmap c) s = .next t → t.fault = none →
    exec (.map b d) t = .next u → u.fault = none →
    (∀ off, t.mem.get (s.x c) off = .error .unmappedSegment) ∧ u.x b = s.x c ∧
    u.mem.len? (s.x c) = some (t.x d) ∧ ∀ off, off < t.x d → u.mem.get (s.x c) off = .ok 0#32

/-! ### Control instructions -/

/-- HALT (43_control.md R120): the halted flag is set, and nothing else changes; in a run that has not
faulted the status is then Halted, also where pc is at the program length, no further instruction
executes, and the exit status is 0. -/
def Obligations.HaltSetsHaltedAndNothingElse : Prop :=
  ∀ s : State, ∃ t, exec .halt s = .next t ∧ t.halted = true ∧
    (s.fault = none → t.status = .halted ∧ (∀ u, step t ≠ .next u) ∧ t.exitStatus = some 0) ∧
    SameRegs s t ∧ t.pc = s.pc ∧ SameStore s t ∧
    t.programLength = s.programLength ∧ t.fault = s.fault ∧ t.curAddr = s.curAddr ∧
    t.curWord = s.curWord ∧ SameStreams s t

/-- LOADPROG with x[B] = 0 (43_control.md R122, R123): a pure jump to x[C], whatever the target, with
segment 0 and the program length as they were. The premise `program_length = len(0)` is part of the
invariant. -/
def Obligations.LoadprogOfZeroIsAJump : Prop :=
  ∀ (b c : Reg) (s : State), s.x b = 0#32 → s.mem.len? 0#32 = some s.programLength →
    ∃ t, exec (.loadprog b c) s = .next t ∧ t.pc = s.x c ∧ SameRegs s t ∧ SameStore s t ∧
      SameControl s t ∧ SameStreams s t

/-- LOADPROG with x[B] a mapped identifier other than 0 (43_control.md R122, 20_memory.md R38):
segment 0 reads at every offset as the source does, the program length is the source's, pc is x[C],
the source and every other segment are unchanged. The capacity check is the spec's own decision D7
(log 7). -/
def Obligations.LoadprogCopiesTheSourceOverSegmentZero : Prop :=
  ∀ (b c : Reg) (s : State) (n : Word), s.x b ≠ 0#32 → s.mem.mapped 0#32 = true →
    s.mem.len? (s.x b) = some n → s.mem.admits s.params n = true →
    ∃ t, exec (.loadprog b c) s = .next t ∧ t.pc = s.x c ∧ t.programLength = n ∧
      t.mem.len? 0#32 = some n ∧ (∀ off, t.mem.get 0#32 off = s.mem.get (s.x b) off) ∧
      (∀ j, j ≠ 0#32 → t.mem.len? j = s.mem.len? j ∧ ∀ off, t.mem.get j off = s.mem.get j off) ∧
      t.mem.tableSize = s.mem.tableSize ∧ t.mem.pool = s.mem.pool ∧
      SameRegs s t ∧ t.halted = s.halted ∧ t.fault = s.fault ∧ t.curAddr = s.curAddr ∧
      t.curWord = s.curWord ∧ SameStreams s t

/-- LOADPROG from a non-zero identifier that is not mapped, and a copy the capacity refuses, fault
with no other effect. The spec's own decisions D6, D7 and D5 (20_memory.md R38; log 6, 7, 20). -/
def Obligations.LoadprogFromUnmappedOrRefusedFaults : Prop :=
  ∀ (b c : Reg) (s : State), s.x b ≠ 0#32 →
    (s.mem.mapped (s.x b) = false →
      ∃ t, exec (.loadprog b c) s = .next t ∧ Raised .unmappedSegment s t) ∧
    (∀ n, s.mem.len? (s.x b) = some n → s.mem.admits s.params n = false →
      ∃ t, exec (.loadprog b c) s = .next t ∧ Raised .resourceExhausted s t)

/-- The copy is deep (20_memory.md R38): after a replacing LOADPROG, a store to the source leaves
every cell of segment 0, and a store to segment 0 leaves every cell of the source. -/
def Obligations.LoadedCopyIsIndependentOfItsSource : Prop :=
  ∀ (b c a d e : Reg) (s t u : State), s.mem.Sound → s.x b ≠ 0#32 →
    exec (.loadprog b c) s = .next t → exec (.sstore a d e) t = .next u →
    (t.x a = s.x b → ∀ off, u.mem.get 0#32 off = t.mem.get 0#32 off) ∧
    (t.x a = 0#32 → ∀ off, u.mem.get (s.x b) off = s.mem.get (s.x b) off)

/-! ### Input and output instructions -/

/-- OUT of a value up to 255 (44_io.md R130): the output gains that byte at its end, and nothing else
changes. -/
def Obligations.OutEmitsTheByte : Prop :=
  ∀ (c : Reg) (s : State), s.x c ≤ 255#32 →
    ∃ t byte, exec (.out c) s = .next t ∧ t.out = s.out ++ [byte] ∧
      byte.toNat = (s.x c).toNat ∧ SameRegs s t ∧ t.pc = s.pc ∧ SameStore s t ∧
      SameControl s t ∧ t.inPos = s.inPos ∧ t.params = s.params

/-- OUT of a value above 255 faults and emits nothing (44_io.md R130): "Output of 255 is legal; output
of 256 is fatal." The fault record is the spec's own decision D5 (log 20). -/
def Obligations.OutAbove255Faults : Prop :=
  ∀ (c : Reg) (s : State), 255#32 < s.x c →
    ∃ t, exec (.out c) s = .next t ∧ Raised .outputRange s t

/-- IN (44_io.md R132): of a finite INPUT the byte at in_pos, zero-extended, and in_pos advances; past
its end all-ones, and nothing is consumed, so every later IN gives all-ones too; of an infinite INPUT
always a byte. INPUT as a parameter is the spec's own decision D9 (log 9). -/
def Obligations.InReadsTheNextByteOrAllOnes : Prop :=
  ∀ (c : Reg) (s : State), ∃ t, exec (.inp c) s = .next t ∧
    SameRegsBut c s t ∧ t.pc = s.pc ∧ SameStore s t ∧ SameControl s t ∧ t.out = s.out ∧
    t.params = s.params ∧
    (∀ (bytes : List Byte) (byte : Byte), s.params.input = .finite bytes →
      bytes[s.inPos]? = some byte → (t.x c).toNat = byte.toNat ∧ t.inPos = s.inPos + 1) ∧
    (∀ bytes : List Byte, s.params.input = .finite bytes → bytes.length ≤ s.inPos →
      t.x c = 0xFFFFFFFF#32 ∧ t.inPos = s.inPos) ∧
    (∀ known : List Byte, s.params.input = .infinite known →
      (t.x c).toNat ≤ 255 ∧ t.inPos = s.inPos + 1 ∧
      ∀ byte, known[s.inPos]? = some byte → (t.x c).toNat = byte.toNat)

/-! ### Illegal opcodes -/

/-- A word from 0xE0000000 up is an undefined instruction: fetched for execution it faults with
IllegalInstruction, its offset and its word recorded, pc one further, and no other effect; it is never
a no-op. The spec's own decisions D2 and D5 (30_encoding.md R67, 60_exceptions.md R142; log 3). -/
def Obligations.IllegalOpcodesFault : Prop :=
  (∀ s : State, (∃ t, exec .illegal14 s = .next t ∧ Raised .illegalInstruction s t) ∧
    ∃ t, exec .illegal15 s = .next t ∧ Raised .illegalInstruction s t) ∧
  ∀ (s : State) (w : Word), s.status = .running → s.mem.get 0#32 s.pc = .ok w →
    0xE0000000#32 ≤ w →
    ∃ t, step s = .next t ∧ t.fault = some ⟨.illegalInstruction, s.pc, w⟩ ∧ t.pc = s.pc + 1#32 ∧
      SameRegs s t ∧ SameStore s t ∧ t.halted = s.halted ∧ t.programLength = s.programLength ∧
      SameStreams s t

/-! ### The step -/

/-- A step runs the decoded instruction (40_instruction_cycle.md R80, R82 to R85): where the word at
(0, pc) decodes to i, the step is exec of i at the state after the fetch, in which pc is one further
and the offset and word of the instruction are held. -/
def Obligations.StepRunsTheDecodedInstruction : Prop :=
  ∀ (s : State) (w : Word) (i : Instr), s.status = .running → s.mem.get 0#32 s.pc = .ok w →
    decode w = i →
    step s = exec i { s with pc := s.pc + 1#32, curAddr := s.pc, curWord := w }

/-- No step exists from Halted, Ended or Faulted (10_state.md R17), and a terminal status stops the
step under its own name, Faulted before Halted before Ended. The status names are the spec's own
decision D5; the stops are the model's (log 2). -/
def Obligations.NoStepLeavesATerminalStatus : Prop :=
  ∀ s : State,
    (s.status = .halted → step s = .fault .runHalted) ∧
    (s.status = .ended → step s = .fault .runEnded) ∧
    (s.status = .faulted → ∃ r, s.fault = some r ∧ step s = .fault (.runFaulted r)) ∧
    (∀ t, step s = .next t → s.status = .running)

/-- "a step in status Running always completes" (70_reset_and_hazards.md R187), and its fetch cannot
fault (40_instruction_cycle.md R82), in every state of the invariant. The wait of IN and OUT for the
host is not represented (log 16). -/
def Obligations.RunningMachineAlwaysSteps : Prop :=
  ∀ s : State, s.Inv → s.status = .running → ∃ t, step s = .next t

/-- Every step keeps the invariant: the canonical form of memory, segment 0 mapped, the pool exactly
the tombstones and each once, the table within MAX_SLOTS, program_length = len(0), input consumed
within INPUT, and the fault record telling the truth (10_state.md R14, R18, R20, R24). -/
def Obligations.EveryStepKeepsTheInvariant : Prop :=
  ∀ s t : State, s.Inv → step s = .next t → t.Inv

/-- The invariant holds right after reset. -/
def Obligations.ResetMeetsTheInvariant : Prop := State.reset.Inv

/-- The invariant holds after the load of any program under any allowed parameters. -/
def Obligations.LoadedMachineMeetsTheInvariant : Prop :=
  ∀ (p : Config.Params) (program : List Word) (s : State), ParamsOk p →
    State.load p program = some s → s.Inv

/-- "The instruction that raises a fault has no effect other than the fetch increment of pc"
(60_exceptions.md R150), for every instruction: whenever exec leaves a fault record, everything else
is as it was. The spec's own decision D5 (log 20). -/
def Obligations.FaultingInstructionHasNoOtherEffect : Prop :=
  ∀ (i : Instr) (s t : State), s.fault = none → exec i s = .next t → t.fault ≠ none →
    ∃ cause, Raised cause s t

/-- Which instruction raises which cause, and on what condition (the table of 60_exceptions.md R141):
no instruction but those named can fault. The names are the spec's own decision D5, the unmapped
source of LOADPROG D6, the capacity D7. -/
def Obligations.EachFaultCauseHasItsInstructionAndCondition : Prop :=
  ∀ (i : Instr) (s t : State) (r : FaultRecord), s.fault = none → s.mem.mapped 0#32 = true →
    exec i s = .next t → t.fault = some r →
    match r.cause with
    | .illegalInstruction => i = .illegal14 ∨ i = .illegal15
    | .divideByZero => ∃ a b c, i = .div a b c ∧ s.x c = 0#32
    | .outputRange => ∃ c, i = .out c ∧ 255#32 < s.x c
    | .unmappedSegment =>
      (∃ a b c, i = .sload a b c ∧ s.mem.mapped (s.x b) = false) ∨
      (∃ a b c, i = .sstore a b c ∧ s.mem.mapped (s.x a) = false) ∨
      (∃ b c, i = .loadprog b c ∧ s.x b ≠ 0#32 ∧ s.mem.mapped (s.x b) = false)
    | .offsetOutOfRange =>
      (∃ a b c n, i = .sload a b c ∧ s.mem.len? (s.x b) = some n ∧ n ≤ s.x c) ∨
      (∃ a b c n, i = .sstore a b c ∧ s.mem.len? (s.x a) = some n ∧ n ≤ s.x b)
    | .unmapZero => ∃ c, i = .unmap c ∧ s.x c = 0#32
    | .unmapUnmapped => ∃ c, i = .unmap c ∧ s.x c ≠ 0#32 ∧ s.mem.mapped (s.x c) = false
    | .resourceExhausted =>
      (∃ b c, i = .map b c ∧ (s.mem.admits s.params (s.x c) = false ∨
        (s.mem.pool = [] ∧ s.params.maxSlots ≤ s.mem.tableSize))) ∨
      (∃ b c n, i = .loadprog b c ∧ s.x b ≠ 0#32 ∧ s.mem.len? (s.x b) = some n ∧
        s.mem.admits s.params n = false)

/-! ### Whole-machine rules -/

/-- The halted flag (10_state.md R13) is initially false; it "is set by HALT and by nothing else;
nothing clears it except reset"; "No instruction reads it": an instruction acts alike whatever it is;
and once it is true no instruction executes. -/
def Obligations.HaltedIsSetByHaltAlone : Prop :=
  State.reset.halted = false ∧
  (∀ (i : Instr) (s t : State), exec i s = .next t →
    (t.halted = true ↔ s.halted = true ∨ i = .halt)) ∧
  (∀ (i : Instr) (s t : State) (h : Bool), exec i s = .next t → i ≠ .halt →
    exec i { s with halted := h } = .next { t with halted := h }) ∧
  (∀ s t : State, s.halted = true → step s ≠ .next t)

/-- "The load-program opcode is the only instruction that can change `program_length`", and only with
a non-zero source (10_state.md R14). The premise is the invariant's program_length = len(0). That the
length is stored is the spec's own decision D20 (log 18). -/
def Obligations.ProgramLengthIsChangedByLoadprogAlone : Prop :=
  ∀ (i : Instr) (s t : State), s.mem.len? 0#32 = some s.programLength → exec i s = .next t →
    t.programLength ≠ s.programLength → ∃ b c, i = .loadprog b c ∧ s.x b ≠ 0#32

/-- pc after a step (40_instruction_cycle.md R83): the increment, for every instruction whatever its
opcode, also an illegal one and one that faults; a LOADPROG that does not fault overwrites it with
x[C] (43_control.md R122). The increment cannot wrap. That a LOADPROG that faults leaves the increment
is 60_exceptions.md R150; that and when it faults are the spec's own decisions D5, D6 and D7
(log 20, 6, 7). -/
def Obligations.PcIsIncrementedUnlessLoadprogWritesIt : Prop :=
  ∀ (s t : State) (w : Word), s.status = .running → s.mem.get 0#32 s.pc = .ok w →
    step s = .next t →
    (s.pc + 1#32).toNat = s.pc.toNat + 1 ∧
    ((∀ b c, decode w ≠ .loadprog b c) → t.pc = s.pc + 1#32) ∧
    (∀ b c, decode w = .loadprog b c →
      t.pc = if t.fault = none then s.x c else s.pc + 1#32)

/-- Which instruction reads and writes which register (the table of 10_state.md R11), both ways.
No more than the table: a register that is not the destination is unchanged; one that is neither read
nor the destination can hold anything without changing what the instruction does; the old value of a
destination that is not read has no effect, but for a fault and for the CMOV whose condition is 0,
which leaves its x[A] as it was. No less: for each register listed as read there are two states that
differ in it alone, after which the instruction leaves states that differ otherwise than by that
register's old value; and each destination is changed from some state. A CMOV of a register onto itself
changes nothing whatever it reads, so those two clauses leave it out. What holds where the instruction
faults rests on the spec's own decision D5 (log 20). -/
def Obligations.RegistersReadAndWrittenAreThoseOfTheTable : Prop :=
  (∀ (i : Instr) (s t : State) (r : Reg), exec i s = .next t →
    (i.dest ≠ some r → t.x r = s.x r) ∧
    (∀ v, r ∉ i.reads → i.dest ≠ some r → exec i (s.setX r v) = .next (t.setX r v)) ∧
    (∀ v, r ∉ i.reads → i.dest = some r → s.fault = none → t.fault = none →
      (∀ a b c, i = .cmov a b c → s.x c ≠ 0#32) → exec i (s.setX r v) = .next t) ∧
    (∀ a b c, i = .cmov a b c → s.x c = 0#32 → t.x a = s.x a)) ∧
  (∀ (i : Instr) (r : Reg), (∀ a c, i ≠ .cmov a a c) → r ∈ i.reads →
    ∃ (s : State) (v : Word) (t u : State), exec i s = .next t ∧ exec i (s.setX r v) = .next u ∧
      u ≠ t ∧ u ≠ t.setX r v) ∧
  (∀ (i : Instr) (r : Reg), (∀ a c, i ≠ .cmov a a c) → i.dest = some r →
    ∃ s t : State, exec i s = .next t ∧ t.x r ≠ s.x r)

/-- The streams (10_state.md R21): at reset `out` is empty and in_pos 0; `out` is appended to by OUT
only, one byte, the value of its register; in_pos is advanced by IN only, by one. No instruction
changes the parameters. -/
def Obligations.StreamsAreMovedByOutAndInAlone : Prop :=
  State.reset.out = [] ∧ State.reset.inPos = 0 ∧
  ∀ (i : Instr) (s t : State), exec i s = .next t →
    (t.out = s.out ∨ ∃ c byte, i = .out c ∧ t.out = s.out ++ [byte] ∧
      byte.toNat = (s.x c).toNat) ∧
    (t.inPos = s.inPos ∨ ∃ c, i = .inp c ∧ t.inPos = s.inPos + 1) ∧
    t.params = s.params

/-- The contents of a cell that exists before and after an instruction change in two ways only: SSTORE
to that very cell, with the value stored, and a LOADPROG that replaces segment 0 (20_memory.md R37,
R38, R49). -/
def Obligations.CellsChangeByStoreOrProgramCopyAlone : Prop :=
  ∀ (i : Instr) (s t : State) (id off v v' : Word), s.mem.Sound → exec i s = .next t →
    s.mem.get id off = .ok v → t.mem.get id off = .ok v' → v' ≠ v →
    (∃ a b c, i = .sstore a b c ∧ id = s.x a ∧ off = s.x b ∧ v' = s.x c) ∨
    (∃ b c, i = .loadprog b c ∧ s.x b ≠ 0#32 ∧ id = 0#32 ∧ s.mem.get (s.x b) off = .ok v')

/-- Segments come, go and change size only so (20_memory.md R31, R34, R35; 10_state.md R18): a length
changes only for segment 0, by LOADPROG; an identifier ceases to be mapped only by UNMAP of it, and
becomes mapped only by the MAP that returns it; the table never shrinks, and grows by one, by MAP. -/
def Obligations.SegmentsComeAndGoByMapAndUnmapAlone : Prop :=
  ∀ (i : Instr) (s t : State) (id : Word), s.mem.Sound → exec i s = .next t →
    (∀ n n', s.mem.len? id = some n → t.mem.len? id = some n' → n' ≠ n →
      id = 0#32 ∧ ∃ b c, i = .loadprog b c ∧ s.x b ≠ 0#32) ∧
    (s.mem.mapped id = true → t.mem.mapped id = false → ∃ c, i = .unmap c ∧ id = s.x c) ∧
    (s.mem.mapped id = false → t.mem.mapped id = true → ∃ b c, i = .map b c ∧ id = t.x b) ∧
    (t.mem.tableSize = s.mem.tableSize ∨
      (t.mem.tableSize = s.mem.tableSize + 1 ∧ ∃ b c, i = .map b c))

/-- A store over the next instruction is executed by the very next step (20_memory.md R52): with
nothing in between, the next step runs the word stored. -/
def Obligations.StoreOverTheNextInstructionIsExecuted : Prop :=
  ∀ (s : State) (w : Word) (a b c : Reg), s.Inv → s.status = .running →
    s.mem.get 0#32 s.pc = .ok w → decode w = .sstore a b c →
    s.x a = 0#32 → s.x b = s.pc + 1#32 → s.pc + 1#32 < s.programLength →
    ∃ t, step s = .next t ∧ t.status = .running ∧ t.mem.get 0#32 t.pc = .ok (s.x c) ∧
      step t = exec (decode (s.x c))
        { t with pc := t.pc + 1#32, curAddr := t.pc, curWord := s.x c }

/-- After a LOADPROG that replaces segment 0 the next instruction is fetched from offset x[C] of the
new segment 0 (43_control.md R122); if that is not below the new program length the run has ended, with
no fault. The end is the spec's own decision D4 (log 5). -/
def Obligations.AfterLoadprogTheNewProgramRuns : Prop :=
  ∀ (s : State) (w n : Word) (b c : Reg), s.Inv → s.status = .running →
    s.mem.get 0#32 s.pc = .ok w → decode w = .loadprog b c → s.x b ≠ 0#32 →
    s.mem.len? (s.x b) = some n → s.mem.admits s.params n = true →
    ∃ t, step s = .next t ∧
      (s.x c < n → t.status = .running ∧ t.mem.get 0#32 t.pc = s.mem.get (s.x b) (s.x c)) ∧
      (n ≤ s.x c → t.status = .ended)

/-- "Bytes the program does not consume are not touched" (44_io.md R133): a step does not depend on
INPUT but through the answer to the one request it may make. INPUT as a parameter is the spec's own
decision D9 (log 9). -/
def Obligations.StepSeesOnlyTheNextInput : Prop :=
  ∀ (s t : State) (input : Config.InputStream),
    inputAt input s.inPos = inputAt s.params.input s.inPos → step s = .next t →
    step { s with params := { s.params with input := input } } =
      .next { t with params := { t.params with input := input } }

/-- The model's own curAddr and curWord are scratch: what they hold between steps changes no step
(log 19). -/
def Obligations.StepIgnoresTheHeldAddressAndWord : Prop :=
  ∀ (s : State) (addr word : Word), step { s with curAddr := addr, curWord := word } = step s

/-- The exit status (60_exceptions.md R158): 0 for Halted and Ended, non-zero for Faulted, none while
the run goes on. -/
def Obligations.ExitStatusIsZeroOnNormalEndAlone : Prop :=
  ∀ s : State,
    (s.status = .running → s.exitStatus = none) ∧
    (s.status = .halted ∨ s.status = .ended → s.exitStatus = some 0) ∧
    (s.status = .faulted → ∃ n, s.exitStatus = some n ∧ n ≠ 0)

/-- On a normal end the whole of `out` is delivered; of a faulted run, some prefix of it, which one is
free (93_implementation_defined.md U6; log 10). -/
def Obligations.DeliveredOutputIsAPrefix : Prop :=
  ∀ s : State,
    (s.status = .halted ∨ s.status = .ended → s.delivered = some s.out) ∧
    (s.status = .faulted → ∃ bytes rest, s.delivered = some bytes ∧ s.out = bytes ++ rest)
end

