-- ==== Sys2Proof/Laws/Cells.lean ====
section
/-! SUPPORT. The laws of one segment's cells: read after write, and that a write keeps the canonical
form. -/

namespace Sys2Proof.Machine

/-- A cell below every listed one reads 0. -/
theorem cellsRead_below {len lo off : Nat} {c : List (Nat × Word)} (h : cellsWf len lo c = true)
    (hoff : off < lo) : cellsRead c off = 0#32 := by
  induction c generalizing lo with
  | nil => rfl
  | cons e rest ih =>
    obtain ⟨k, v⟩ := e
    simp only [cellsWf, Bool.and_eq_true, decide_eq_true_eq] at h
    have : k ≠ off := by omega
    simp only [cellsRead, this, if_false]
    exact ih h.2 (by omega)

/-- The lower bound of a canonical list may be taken lower. -/
theorem cellsWf_mono {len lo lo' : Nat} {c : List (Nat × Word)} (h : cellsWf len lo c = true)
    (hlo : lo' ≤ lo) : cellsWf len lo' c = true := by
  cases c with
  | nil => rfl
  | cons e rest =>
    obtain ⟨k, v⟩ := e
    simp only [cellsWf, Bool.and_eq_true, decide_eq_true_eq] at h ⊢
    exact ⟨⟨⟨by omega, h.1.1.2⟩, h.1.2⟩, h.2⟩

/-- A write below the length keeps the canonical form. -/
theorem cellsWf_write {len lo off : Nat} {c : List (Nat × Word)} (v : Word)
    (h : cellsWf len lo c = true) (hlo : lo ≤ off) (hlen : off < len) :
    cellsWf len lo (cellsWrite c off v) = true := by
  induction c generalizing lo with
  | nil =>
    by_cases hv : v = 0#32 <;> simp [cellsWrite, hv, cellsWf, hlo, hlen]
  | cons e rest ih =>
    obtain ⟨k, u⟩ := e
    simp only [cellsWf, Bool.and_eq_true, decide_eq_true_eq] at h
    obtain ⟨⟨⟨h1, h2⟩, h3⟩, h4⟩ := h
    unfold cellsWrite
    by_cases hk : off < k
    · by_cases hv : v = 0#32
      · simp [hk, hv, cellsWf, h1, h2, h3, h4]
      · have : off + 1 ≤ k := by omega
        simp [hk, hv, cellsWf, hlo, hlen, h2, h3, h4, this]
    · by_cases he : off = k
      · subst he
        by_cases hv : v = 0#32
        · simp [hv]; exact cellsWf_mono h4 (by omega)
        · simp [hv, cellsWf, hlo, hlen, h4]
      · simp [hk, he, cellsWf, h1, h2, h3]
        exact ih h4 (by omega)

/-- Read after write: the cell written holds the word, every other cell is as before. -/
theorem cellsRead_write {len lo off : Nat} {c : List (Nat × Word)} (v : Word) (j : Nat)
    (h : cellsWf len lo c = true) :
    cellsRead (cellsWrite c off v) j = if j = off then v else cellsRead c j := by
  induction c generalizing lo with
  | nil =>
    by_cases hv : v = 0#32 <;> by_cases hj : j = off <;> simp [cellsWrite, cellsRead, hv, hj]
    exact fun e => absurd e.symm hj
  | cons e rest ih =>
    obtain ⟨k, u⟩ := e
    simp only [cellsWf, Bool.and_eq_true, decide_eq_true_eq] at h
    obtain ⟨⟨⟨h1, h2⟩, h3⟩, h4⟩ := h
    unfold cellsWrite
    by_cases hk : off < k
    · by_cases hj : j = off
      · subst hj
        have hbelow : cellsRead rest j = 0#32 := cellsRead_below h4 (by omega)
        have : k ≠ j := by omega
        by_cases hv : v = 0#32 <;> simp [hk, hv, cellsRead, this, hbelow]
      · have : off ≠ j := fun e => hj e.symm
        by_cases hv : v = 0#32 <;> simp [hk, hv, cellsRead, hj, this]
    · by_cases he : off = k
      · subst he
        by_cases hj : j = off
        · subst hj
          have hbelow : cellsRead rest j = 0#32 := cellsRead_below h4 (by omega)
          by_cases hv : v = 0#32 <;> simp [hv, cellsRead, hbelow]
        · have : off ≠ j := fun e => hj e.symm
          by_cases hv : v = 0#32 <;> simp [hv, cellsRead, hj, this]
      · simp only [hk, he, if_false, cellsRead, ih h4]
        by_cases hj : k = j
        · have : j ≠ off := by omega
          simp [hj, this]
        · simp [hj]

/-- The cells of a list of words read as the list, and 0 elsewhere. -/
theorem cellsRead_cellsOf (k : Nat) (ws : List Word) (off : Nat) :
    cellsRead (cellsOf k ws) off = if k ≤ off then (ws[off - k]?).getD 0#32 else 0#32 := by
  induction ws generalizing k with
  | nil => simp [cellsOf, cellsRead]
  | cons w ws ih =>
    unfold cellsOf
    by_cases hk : k = off
    · subst hk
      by_cases hw : w = 0#32
      · simp [hw, ih]
      · simp [hw, cellsRead]
    · have hih := ih (k + 1)
      have key : (if k + 1 ≤ off then (ws[off - (k + 1)]?).getD 0#32 else 0#32)
          = if k ≤ off then ((w :: ws)[off - k]?).getD 0#32 else 0#32 := by
        by_cases hle : k ≤ off
        · have e : off - k = (off - (k + 1)) + 1 := by omega
          have hle' : k + 1 ≤ off := by omega
          simp [hle, hle', e]
        · have : ¬ k + 1 ≤ off := by omega
          simp [hle, this]
      rw [← key, ← hih]
      by_cases hw : w = 0#32 <;> simp [hw, cellsRead, hk]

/-- The cells of a list of words are canonical. -/
theorem cellsWf_cellsOf (k len : Nat) (ws : List Word) (h : k + ws.length ≤ len) :
    cellsWf len k (cellsOf k ws) = true := by
  induction ws generalizing k with
  | nil => rfl
  | cons w ws ih =>
    simp only [List.length_cons] at h
    have hrest := ih (k + 1) (by omega)
    unfold cellsOf
    by_cases hw : w = 0#32
    · simp [hw]; exact cellsWf_mono hrest (by omega)
    · have : k < len := by omega
      simp [hw, cellsWf, hrest, this]

/-- Canonical lists that read alike are equal: equal segments are equal data. -/
theorem cells_ext {len lo : Nat} {c d : List (Nat × Word)} (hc : cellsWf len lo c = true)
    (hd : cellsWf len lo d = true) (h : ∀ off, cellsRead c off = cellsRead d off) : c = d := by
  induction c generalizing lo d with
  | nil =>
    cases d with
    | nil => rfl
    | cons e rest =>
      obtain ⟨k, v⟩ := e
      have := h k
      simp only [cellsWf, Bool.and_eq_true, decide_eq_true_eq] at hd
      simp [cellsRead] at this
      exact absurd this.symm hd.1.2
  | cons e rest ih =>
    obtain ⟨k, v⟩ := e
    simp only [cellsWf, Bool.and_eq_true, decide_eq_true_eq] at hc
    cases d with
    | nil =>
      have := h k
      simp [cellsRead] at this
      exact absurd this hc.1.2
    | cons e' rest' =>
      obtain ⟨k', v'⟩ := e'
      simp only [cellsWf, Bool.and_eq_true, decide_eq_true_eq] at hd
      have hkk : k = k' := by
        rcases Nat.lt_trichotomy k k' with hlt | heq | hgt
        · have h1 := h k
          have hne : ¬ k' = k := by omega
          simp only [cellsRead, if_true, hne, if_false, cellsRead_below hd.2 (by omega : k < k' + 1)] at h1
          exact absurd h1 hc.1.2
        · exact heq
        · have h1 := h k'
          have hne : ¬ k = k' := by omega
          simp only [cellsRead, if_true, hne, if_false, cellsRead_below hc.2 (by omega : k' < k + 1)] at h1
          exact absurd h1.symm hd.1.2
      subst hkk
      have hv : v = v' := by simpa [cellsRead] using h k
      subst hv
      have hrest : rest = rest' := by
        refine ih hc.2 hd.2 fun off => ?_
        by_cases hk : k = off
        · subst hk
          rw [cellsRead_below hc.2 (by omega), cellsRead_below hd.2 (by omega)]
        · simpa [cellsRead, hk] using h off
      rw [hrest]

end Sys2Proof.Machine
end

