-- ==== Sys2Proof/Laws/Memory.lean ====
section
/-! SUPPORT. What each operation of the segment store does, said once: lookups after an update, one
inversion lemma per operation, and that every operation keeps the canonical form. -/

namespace Sys2Proof.Machine

/-! ### Lookups -/

theorem Memory.segment?_eq_some {m : Memory} {id : Word} {g : Segment} :
    m.segment? id = some g ↔ m.slots[id.toNat]? = some (.segment g) := by
  unfold Memory.segment?
  split <;> simp_all

theorem Memory.segment?_eq_none {m : Memory} {id : Word} :
    m.segment? id = none ↔ m.slots[id.toNat]? = none ∨ m.slots[id.toNat]? = some .tombstone := by
  unfold Memory.segment?
  split <;> simp_all

theorem Memory.mapped_iff {m : Memory} {id : Word} :
    m.mapped id = true ↔ ∃ g, m.segment? id = some g := by
  simp [Memory.mapped, Option.isSome_iff_exists]

/-- A mapped identifier is below the table size (20_memory.md R33). -/
theorem Memory.lt_tableSize {m : Memory} {id : Word} {g : Segment} (h : m.segment? id = some g) :
    id.toNat < m.tableSize := by
  rw [Memory.segment?_eq_some] at h
  exact (List.getElem?_eq_some_iff.mp h).1

/-- The lookup depends on the slots alone. -/
theorem Memory.segment?_of_slots {m m' : Memory} {id : Word}
    (h : m'.slots[id.toNat]? = m.slots[id.toNat]?) : m'.segment? id = m.segment? id := by
  simp [Memory.segment?, h]

theorem Memory.get_of_segment? {m m' : Memory} {id : Word} (h : m'.segment? id = m.segment? id)
    (off : Word) : m'.get id off = m.get id off := by
  simp [Memory.get, h]

theorem Memory.len?_of_segment? {m m' : Memory} {id : Word} (h : m'.segment? id = m.segment? id) :
    m'.len? id = m.len? id := by
  simp [Memory.len?, h]

@[simp] theorem Memory.tableSize_putSlot (m : Memory) (id : Word) (slot : Slot) :
    (m.putSlot id slot).tableSize = m.tableSize := by
  simp [Memory.putSlot, Memory.tableSize]

@[simp] theorem Memory.pool_putSlot (m : Memory) (id : Word) (slot : Slot) :
    (m.putSlot id slot).pool = m.pool := rfl

theorem Memory.segment?_putSlot_self {m : Memory} {id : Word} (g : Segment)
    (h : id.toNat < m.tableSize) : (m.putSlot id (.segment g)).segment? id = some g := by
  rw [Memory.segment?_eq_some]
  simp only [Memory.tableSize] at h
  simp [Memory.putSlot, h]

theorem Memory.segment?_putSlot_ne (m : Memory) {id j : Word} (slot : Slot) (h : j ≠ id) :
    (m.putSlot id slot).segment? j = m.segment? j := by
  apply Memory.segment?_of_slots
  have : id.toNat ≠ j.toNat := fun e => h (BitVec.eq_of_toNat_eq e.symm)
  simp [Memory.putSlot, this]

/-! ### The canonical form -/

theorem Memory.wf_iff {m : Memory} : m.wf = true ↔ ∀ slot ∈ m.slots, slotWf slot = true := by
  simp [Memory.wf]

theorem Memory.slotWf_of_segment? {m : Memory} {id : Word} {g : Segment} (hwf : m.wf = true)
    (h : m.segment? id = some g) : slotWf (.segment g) = true := by
  rw [Memory.segment?_eq_some] at h
  exact Memory.wf_iff.mp hwf _ (List.mem_of_getElem? h)

@[simp] theorem slotWf_zeroed (n : Word) : slotWf (.segment (.zeroed n)) = true := rfl

theorem slotWf_write {g : Segment} {off : Word} (v : Word) (h : slotWf (.segment g) = true)
    (hoff : off < g.len) : slotWf (.segment (g.write off v)) = true :=
  cellsWf_write v h (Nat.zero_le _) (BitVec.lt_def.mp hoff)

theorem slotWf_ofWords (ws : List Word) (h : ws.length < 4294967296) :
    slotWf (.segment (.ofWords ws)) = true := by
  simp only [slotWf, Segment.ofWords]
  apply cellsWf_cellsOf
  simp only [BitVec.toNat_ofNat]
  omega

/-- Replacing one slot by a canonical one keeps the form. -/
theorem wf_set {slots : List Slot} {pool pool' : List Word} {n : Nat} {slot : Slot}
    (h : ({ slots := slots, pool := pool } : Memory).wf = true) (hs : slotWf slot = true) :
    ({ slots := slots.set n slot, pool := pool' } : Memory).wf = true := by
  rw [Memory.wf_iff] at h ⊢
  intro s hm
  rcases List.mem_or_eq_of_mem_set hm with h' | h'
  · exact h s h'
  · exact h' ▸ hs

/-! ### get and set (20_memory.md R36, R37) -/

theorem Memory.get_eq_ok {m : Memory} {id off v : Word} :
    m.get id off = .ok v ↔ ∃ g, m.segment? id = some g ∧ off < g.len ∧ g.read off = v := by
  unfold Memory.get
  split
  · simp_all
  · rename_i g hg
    by_cases h : g.len ≤ off
    · simp [h, hg, BitVec.not_lt.mpr h]
    · simp [h, hg, BitVec.not_le.mp h]

/-- Everything `set` can do. -/
theorem Memory.set_eq_ok {m m' : Memory} {id off v : Word} :
    m.set id off v = .ok m' ↔
      ∃ g, m.segment? id = some g ∧ off < g.len ∧ m' = m.putSlot id (.segment (g.write off v)) := by
  unfold Memory.set
  split
  · simp_all
  · rename_i g hg
    by_cases h : g.len ≤ off
    · simp [h, hg, BitVec.not_lt.mpr h]
    · simp only [h, if_false, Except.ok.injEq]
      constructor
      · rintro rfl
        exact ⟨g, hg, BitVec.not_le.mp h, rfl⟩
      · rintro ⟨g', hg', -, rfl⟩
        rw [hg] at hg'
        cases hg'
        rfl

/-- `get` and `set` fault alike: they have the "same preconditions" (20_memory.md R37). -/
theorem Memory.set_error_iff_get_error {m : Memory} {id off v : Word} {cause : FaultCause} :
    m.set id off v = .error cause ↔ m.get id off = .error cause := by
  unfold Memory.set Memory.get
  split
  · simp
  · split <;> simp

theorem Memory.wf_of_set {m m' : Memory} {id off v : Word} (hwf : m.wf = true)
    (h : m.set id off v = .ok m') : m'.wf = true := by
  obtain ⟨g, hg, hoff, rfl⟩ := Memory.set_eq_ok.mp h
  exact wf_set hwf (slotWf_write v (Memory.slotWf_of_segment? hwf hg) hoff)

/-- Read after write in a canonical store: the cell written holds the word, every other cell reads
as before, and an access that faulted faults as before (20_memory.md R37, R45). -/
theorem Memory.get_of_set {m m' : Memory} {id off v : Word} (hwf : m.wf = true)
    (h : m.set id off v = .ok m') (id' off' : Word) :
    m'.get id' off' = if id' = id ∧ off' = off then .ok v else m.get id' off' := by
  obtain ⟨g, hg, hoff, rfl⟩ := Memory.set_eq_ok.mp h
  have hcanon : cellsWf g.len.toNat 0 g.cells = true := Memory.slotWf_of_segment? hwf hg
  by_cases hid : id' = id
  · subst hid
    have hself := Memory.segment?_putSlot_self (m := m) (g.write off v) (Memory.lt_tableSize hg)
    have hread : (g.write off v).read off' = if off' = off then v else g.read off' := by
      simp only [Segment.read, Segment.write]
      rw [cellsRead_write v off'.toNat hcanon]
      by_cases ho : off' = off
      · simp [ho]
      · have : off'.toNat ≠ off.toNat := fun e => ho (BitVec.eq_of_toNat_eq e)
        simp [ho, this]
    have hlen : (g.write off v).len = g.len := rfl
    unfold Memory.get
    rw [hself, hg]
    simp only [hlen, hread]
    by_cases ho : off' = off
    · subst ho
      simp [BitVec.not_le.mpr hoff]
    · simp [ho]
  · simp only [hid, false_and, if_false]
    exact Memory.get_of_segment? (Memory.segment?_putSlot_ne m _ hid) off'

/-! ### map (20_memory.md R34) -/

/-- Everything `map` can do. -/
theorem Memory.map_eq_ok {p : Config.Params} {m m' : Memory} {n id : Word} :
    m.map p n = .ok (id, m') ↔
      m.admits p n = true ∧
        ((∃ rest, m.pool = id :: rest ∧
            m' = { slots := m.slots.set id.toNat (.segment (.zeroed n)), pool := rest }) ∨
          (m.pool = [] ∧ m.tableSize < p.maxSlots ∧ id = BitVec.ofNat 32 m.tableSize ∧
            m' = { slots := m.slots ++ [.segment (.zeroed n)], pool := [] })) := by
  unfold Memory.map
  by_cases ha : m.admits p n = true
  · cases hp : m.pool with
    | nil =>
      by_cases hs : p.maxSlots ≤ m.tableSize
      · simp [ha, hs]
      · simp [ha, hs, eq_comm, Nat.not_le.mp hs]
    | cons top rest =>
      simp only [ha, if_true, true_and, reduceCtorEq, false_and, or_false]
      constructor
      · intro h
        simp only [Except.ok.injEq, Prod.mk.injEq] at h
        obtain ⟨rfl, rfl⟩ := h
        exact ⟨rest, rfl, rfl⟩
      · rintro ⟨rest', h1, rfl⟩
        simp only [List.cons.injEq] at h1
        obtain ⟨rfl, rfl⟩ := h1
        rfl
  · simp [ha]

theorem Memory.wf_of_map {p : Config.Params} {m m' : Memory} {n id : Word} (hwf : m.wf = true)
    (h : m.map p n = .ok (id, m')) : m'.wf = true := by
  obtain ⟨-, ⟨rest, -, rfl⟩ | ⟨-, -, -, rfl⟩⟩ := Memory.map_eq_ok.mp h
  · exact wf_set hwf (slotWf_zeroed n)
  · rw [Memory.wf_iff] at hwf ⊢
    intro slot hs
    rcases List.mem_append.mp hs with h' | h'
    · exact hwf slot h'
    · simp only [List.mem_singleton] at h'
      exact h' ▸ slotWf_zeroed n

/-! ### unmap (20_memory.md R35) -/

/-- Everything `unmap` can do. -/
theorem Memory.unmap_eq_ok {m m' : Memory} {id : Word} :
    m.unmap id = .ok m' ↔
      id ≠ 0#32 ∧ m.mapped id = true ∧
        m' = { slots := m.slots.set id.toNat .tombstone, pool := id :: m.pool } := by
  unfold Memory.unmap
  by_cases h0 : id = 0#32
  · simp [h0]
  · by_cases hm : m.mapped id = true
    · simp [h0, hm, eq_comm]
    · simp [h0, hm]

theorem Memory.wf_of_unmap {m m' : Memory} {id : Word} (hwf : m.wf = true)
    (h : m.unmap id = .ok m') : m'.wf = true := by
  obtain ⟨-, -, rfl⟩ := Memory.unmap_eq_ok.mp h
  exact wf_set hwf rfl

/-! ### duplicate_to_zero (20_memory.md R38) -/

/-- Everything `duplicate_to_zero` can do. -/
theorem Memory.duplicateToZero_eq_ok {p : Config.Params} {m m' : Memory} {src n : Word} :
    m.duplicateToZero p src = .ok (m', n) ↔
      ∃ g, m.segment? src = some g ∧ n = g.len ∧
        ((src = 0#32 ∧ m' = m) ∨
          (src ≠ 0#32 ∧ m.admits p g.len = true ∧ m' = m.putSlot 0#32 (.segment g))) := by
  unfold Memory.duplicateToZero
  cases hg : m.segment? src with
  | none => simp
  | some g =>
    by_cases h0 : src = 0#32
    · constructor
      · intro h
        simp only [h0, if_true, Except.ok.injEq, Prod.mk.injEq] at h
        obtain ⟨rfl, rfl⟩ := h
        exact ⟨g, rfl, rfl, .inl ⟨h0, rfl⟩⟩
      · rintro ⟨g', hg', rfl, ⟨-, rfl⟩ | ⟨h1, -⟩⟩
        · cases hg'
          simp [h0]
        · exact absurd h0 h1
    · by_cases ha : m.admits p g.len = true
      · constructor
        · intro h
          simp only [h0, ha, if_false, if_true, Except.ok.injEq, Prod.mk.injEq] at h
          obtain ⟨rfl, rfl⟩ := h
          exact ⟨g, rfl, rfl, .inr ⟨h0, ha, rfl⟩⟩
        · rintro ⟨g', hg', rfl, ⟨h1, -⟩ | ⟨-, -, rfl⟩⟩
          · exact absurd h1 h0
          · cases hg'
            simp [h0, ha]
      · simp [h0, ha]

theorem Memory.wf_of_duplicateToZero {p : Config.Params} {m m' : Memory} {src n : Word}
    (hwf : m.wf = true) (h : m.duplicateToZero p src = .ok (m', n)) : m'.wf = true := by
  obtain ⟨g, hg, -, ⟨-, rfl⟩ | ⟨-, -, rfl⟩⟩ := Memory.duplicateToZero_eq_ok.mp h
  · exact hwf
  · exact wf_set hwf (Memory.slotWf_of_segment? hwf hg)

end Sys2Proof.Machine
end

