-- ==== Sys2Proof/Laws/State.lean ====
section
/-! SUPPORT. One lemma per field per update of the state, and the laws of the register file, so that
no later proof unfolds an update. -/

namespace Sys2Proof.Machine

variable (s : State)

/-! `setX` writes its register and nothing else. -/

@[simp] theorem State.setX_regs (i : Reg) (v : Word) : (s.setX i v).regs = s.regs.set i v := rfl
@[simp] theorem State.setX_pc (i : Reg) (v : Word) : (s.setX i v).pc = s.pc := rfl
@[simp] theorem State.setX_halted (i : Reg) (v : Word) : (s.setX i v).halted = s.halted := rfl
@[simp] theorem State.setX_programLength (i : Reg) (v : Word) : (s.setX i v).programLength = s.programLength := rfl
@[simp] theorem State.setX_fault (i : Reg) (v : Word) : (s.setX i v).fault = s.fault := rfl
@[simp] theorem State.setX_mem (i : Reg) (v : Word) : (s.setX i v).mem = s.mem := rfl
@[simp] theorem State.setX_out (i : Reg) (v : Word) : (s.setX i v).out = s.out := rfl
@[simp] theorem State.setX_inPos (i : Reg) (v : Word) : (s.setX i v).inPos = s.inPos := rfl
@[simp] theorem State.setX_params (i : Reg) (v : Word) : (s.setX i v).params = s.params := rfl
@[simp] theorem State.setX_curAddr (i : Reg) (v : Word) : (s.setX i v).curAddr = s.curAddr := rfl
@[simp] theorem State.setX_curWord (i : Reg) (v : Word) : (s.setX i v).curWord = s.curWord := rfl

/-! `setPc` writes pc and nothing else. -/

@[simp] theorem State.setPc_regs (target : Word) : (s.setPc target).regs = s.regs := rfl
@[simp] theorem State.setPc_pc (target : Word) : (s.setPc target).pc = target := rfl
@[simp] theorem State.setPc_halted (target : Word) : (s.setPc target).halted = s.halted := rfl
@[simp] theorem State.setPc_programLength (target : Word) : (s.setPc target).programLength = s.programLength := rfl
@[simp] theorem State.setPc_fault (target : Word) : (s.setPc target).fault = s.fault := rfl
@[simp] theorem State.setPc_mem (target : Word) : (s.setPc target).mem = s.mem := rfl
@[simp] theorem State.setPc_out (target : Word) : (s.setPc target).out = s.out := rfl
@[simp] theorem State.setPc_inPos (target : Word) : (s.setPc target).inPos = s.inPos := rfl
@[simp] theorem State.setPc_params (target : Word) : (s.setPc target).params = s.params := rfl
@[simp] theorem State.setPc_curAddr (target : Word) : (s.setPc target).curAddr = s.curAddr := rfl
@[simp] theorem State.setPc_curWord (target : Word) : (s.setPc target).curWord = s.curWord := rfl

/-! `raise` sets the fault record and nothing else. -/

@[simp] theorem State.raise_regs (cause : FaultCause) : (s.raise cause).regs = s.regs := rfl
@[simp] theorem State.raise_pc (cause : FaultCause) : (s.raise cause).pc = s.pc := rfl
@[simp] theorem State.raise_halted (cause : FaultCause) : (s.raise cause).halted = s.halted := rfl
@[simp] theorem State.raise_programLength (cause : FaultCause) : (s.raise cause).programLength = s.programLength := rfl
@[simp] theorem State.raise_fault (cause : FaultCause) : (s.raise cause).fault = some { cause := cause, addr := s.curAddr, word := s.curWord } := rfl
@[simp] theorem State.raise_mem (cause : FaultCause) : (s.raise cause).mem = s.mem := rfl
@[simp] theorem State.raise_out (cause : FaultCause) : (s.raise cause).out = s.out := rfl
@[simp] theorem State.raise_inPos (cause : FaultCause) : (s.raise cause).inPos = s.inPos := rfl
@[simp] theorem State.raise_params (cause : FaultCause) : (s.raise cause).params = s.params := rfl
@[simp] theorem State.raise_curAddr (cause : FaultCause) : (s.raise cause).curAddr = s.curAddr := rfl
@[simp] theorem State.raise_curWord (cause : FaultCause) : (s.raise cause).curWord = s.curWord := rfl

/-! `halt` sets the halted flag and nothing else. -/

@[simp] theorem State.halt_regs : (s.halt).regs = s.regs := rfl
@[simp] theorem State.halt_pc : (s.halt).pc = s.pc := rfl
@[simp] theorem State.halt_halted : (s.halt).halted = true := rfl
@[simp] theorem State.halt_programLength : (s.halt).programLength = s.programLength := rfl
@[simp] theorem State.halt_fault : (s.halt).fault = s.fault := rfl
@[simp] theorem State.halt_mem : (s.halt).mem = s.mem := rfl
@[simp] theorem State.halt_out : (s.halt).out = s.out := rfl
@[simp] theorem State.halt_inPos : (s.halt).inPos = s.inPos := rfl
@[simp] theorem State.halt_params : (s.halt).params = s.params := rfl
@[simp] theorem State.halt_curAddr : (s.halt).curAddr = s.curAddr := rfl
@[simp] theorem State.halt_curWord : (s.halt).curWord = s.curWord := rfl

/-! `emit` appends one byte of output and changes nothing else. -/

@[simp] theorem State.emit_regs (b : Byte) : (s.emit b).regs = s.regs := rfl
@[simp] theorem State.emit_pc (b : Byte) : (s.emit b).pc = s.pc := rfl
@[simp] theorem State.emit_halted (b : Byte) : (s.emit b).halted = s.halted := rfl
@[simp] theorem State.emit_programLength (b : Byte) : (s.emit b).programLength = s.programLength := rfl
@[simp] theorem State.emit_fault (b : Byte) : (s.emit b).fault = s.fault := rfl
@[simp] theorem State.emit_mem (b : Byte) : (s.emit b).mem = s.mem := rfl
@[simp] theorem State.emit_out (b : Byte) : (s.emit b).out = s.out ++ [b] := rfl
@[simp] theorem State.emit_inPos (b : Byte) : (s.emit b).inPos = s.inPos := rfl
@[simp] theorem State.emit_params (b : Byte) : (s.emit b).params = s.params := rfl
@[simp] theorem State.emit_curAddr (b : Byte) : (s.emit b).curAddr = s.curAddr := rfl
@[simp] theorem State.emit_curWord (b : Byte) : (s.emit b).curWord = s.curWord := rfl

/-! `consumeInput` advances the input position and changes nothing else. -/

@[simp] theorem State.consumeInput_regs : (s.consumeInput).regs = s.regs := rfl
@[simp] theorem State.consumeInput_pc : (s.consumeInput).pc = s.pc := rfl
@[simp] theorem State.consumeInput_halted : (s.consumeInput).halted = s.halted := rfl
@[simp] theorem State.consumeInput_programLength : (s.consumeInput).programLength = s.programLength := rfl
@[simp] theorem State.consumeInput_fault : (s.consumeInput).fault = s.fault := rfl
@[simp] theorem State.consumeInput_mem : (s.consumeInput).mem = s.mem := rfl
@[simp] theorem State.consumeInput_out : (s.consumeInput).out = s.out := rfl
@[simp] theorem State.consumeInput_inPos : (s.consumeInput).inPos = s.inPos + 1 := rfl
@[simp] theorem State.consumeInput_params : (s.consumeInput).params = s.params := rfl
@[simp] theorem State.consumeInput_curAddr : (s.consumeInput).curAddr = s.curAddr := rfl
@[simp] theorem State.consumeInput_curWord : (s.consumeInput).curWord = s.curWord := rfl

/-! `fetched` increments pc and holds the address and word of the step. -/

@[simp] theorem State.fetched_regs (w : Word) : (s.fetched w).regs = s.regs := rfl
@[simp] theorem State.fetched_pc (w : Word) : (s.fetched w).pc = s.pc + 1#32 := rfl
@[simp] theorem State.fetched_halted (w : Word) : (s.fetched w).halted = s.halted := rfl
@[simp] theorem State.fetched_programLength (w : Word) : (s.fetched w).programLength = s.programLength := rfl
@[simp] theorem State.fetched_fault (w : Word) : (s.fetched w).fault = s.fault := rfl
@[simp] theorem State.fetched_mem (w : Word) : (s.fetched w).mem = s.mem := rfl
@[simp] theorem State.fetched_out (w : Word) : (s.fetched w).out = s.out := rfl
@[simp] theorem State.fetched_inPos (w : Word) : (s.fetched w).inPos = s.inPos := rfl
@[simp] theorem State.fetched_params (w : Word) : (s.fetched w).params = s.params := rfl
@[simp] theorem State.fetched_curAddr (w : Word) : (s.fetched w).curAddr = s.pc := rfl
@[simp] theorem State.fetched_curWord (w : Word) : (s.fetched w).curWord = w := rfl

/-! The register file (10_state.md R10): a write is seen by its own register alone. -/

@[simp] theorem State.x_setX_self (i : Reg) (v : Word) : (s.setX i v).x i = v := by
  simp [State.x, State.setX]

theorem State.x_setX_ne (i r : Reg) (v : Word) (h : r ≠ i) : (s.setX i v).x r = s.x r := by
  have : i.val ≠ r.val := fun e => h (Fin.ext e.symm)
  simp [State.x, State.setX, Vector.getElem_set_ne, this]

/-- Writing one register leaves a list of others as read. -/
theorem State.x_setX (i r : Reg) (v : Word) : (s.setX i v).x r = if r = i then v else s.x r := by
  by_cases h : r = i
  · subst h; simp
  · simp [h, State.x_setX_ne]

/-- Updates that do not touch the register file leave every register as read. -/
theorem State.x_of_regs {s t : State} (h : t.regs = s.regs) (r : Reg) : t.x r = s.x r := by
  simp [State.x, h]

@[simp] theorem State.x_setPc (target : Word) (r : Reg) : (s.setPc target).x r = s.x r := rfl
@[simp] theorem State.x_raise (cause : FaultCause) (r : Reg) : (s.raise cause).x r = s.x r := rfl
@[simp] theorem State.x_halt (r : Reg) : s.halt.x r = s.x r := rfl
@[simp] theorem State.x_emit (b : Byte) (r : Reg) : (s.emit b).x r = s.x r := rfl
@[simp] theorem State.x_consumeInput (r : Reg) : s.consumeInput.x r = s.x r := rfl
@[simp] theorem State.x_fetched (w : Word) (r : Reg) : (s.fetched w).x r = s.x r := rfl
@[simp] theorem State.x_withMem (m : Memory) (r : Reg) : ({ s with mem := m } : State).x r = s.x r := rfl

/-! The status (10_state.md R17), by what it is read from. -/

theorem State.status_running_iff :
    s.status = .running ↔ s.fault = none ∧ s.halted = false ∧ s.pc < s.programLength := by
  unfold State.status
  cases hf : s.fault <;> cases hh : s.halted <;> simp [BitVec.not_le]

@[simp] theorem State.status_raise (cause : FaultCause) : (s.raise cause).status = .faulted := by
  simp [State.status]

theorem State.status_faulted_iff : s.status = .faulted ↔ s.fault ≠ none := by
  unfold State.status
  cases s.fault <;> cases s.halted <;> simp
  split <;> simp

end Sys2Proof.Machine
end

