-- ==== Sys2Proof/Laws/Exec.lean ====
section
/-! SUPPORT. What an instruction and a step can do, said once. -/

namespace Sys2Proof.Machine

/-- Everything `orRaise` can do: the fault and no other effect, or the effect. -/
theorem State.orRaise_eq_next {α : Type} {s t : State} {result : Except FaultCause α}
    {effect : α → State} :
    s.orRaise result effect = .next t ↔
      (∃ cause, result = .error cause ∧ t = s.raise cause) ∨
        (∃ a, result = .ok a ∧ t = effect a) := by
  cases result <;> simp [State.orRaise, eq_comm]

@[simp] theorem State.orRaise_ok {α : Type} (s : State) (a : α) (effect : α → State) :
    s.orRaise (.ok a) effect = .next (effect a) := rfl

@[simp] theorem State.orRaise_error {α : Type} (s : State) (cause : FaultCause)
    (effect : α → State) : s.orRaise (.error cause) effect = .next (s.raise cause) := rfl

theorem State.orRaise_next {α : Type} (s : State) (result : Except FaultCause α)
    (effect : α → State) : ∃ t, s.orRaise result effect = .next t := by
  cases result <;> simp

/-- Every instruction answers a next state: a fault is a state too (60_exceptions.md R150). -/
theorem exec_next (i : Instr) (s : State) : ∃ t, exec i s = .next t := by
  cases i with
  | sload a b c => exact s.orRaise_next _ _
  | sstore a b c => exact s.orRaise_next _ _
  | div a b c => exact s.orRaise_next _ _
  | map b c => exact s.orRaise_next _ _
  | unmap c => exact s.orRaise_next _ _
  | out c => exact s.orRaise_next _ _
  | loadprog b c => exact s.orRaise_next _ _
  | inp c =>
    simp only [exec, execIn]
    split
    · exact ⟨_, rfl⟩
    · exact ⟨_, rfl⟩
  | cmov a b c => exact ⟨_, rfl⟩
  | add a b c => exact ⟨_, rfl⟩
  | mul a b c => exact ⟨_, rfl⟩
  | nand a b c => exact ⟨_, rfl⟩
  | halt => exact ⟨_, rfl⟩
  | loadv a literal => exact ⟨_, rfl⟩
  | illegal14 => exact ⟨_, rfl⟩
  | illegal15 => exact ⟨_, rfl⟩

/-- Everything a step that answers a next state has done (40_instruction_cycle.md R80). -/
theorem step_eq_next {s t : State} :
    step s = .next t ↔
      s.status = .running ∧ ∃ w, s.fetch = .ok w ∧ exec (decode w) (s.fetched w) = .next t := by
  rw [State.status_running_iff]
  unfold step
  cases hf : s.fault with
  | some r => simp
  | none =>
    cases hh : s.halted with
    | true => simp
    | false =>
      by_cases hp : s.programLength ≤ s.pc
      · simp [hp, BitVec.not_lt.mpr hp]
      · have := BitVec.not_le.mp hp
        cases hw : s.fetch with
        | error c => simp [hp]
        | ok w => simp [hp, this]

end Sys2Proof.Machine
end

