-- ==== Sys2Proof/Laws/PerInstr.lean ====
section
/-! SUPPORT. Facts about every instruction as syntax, one lemma per constructor. -/

namespace Sys2Proof.Laws

theorem opField_encodeR3 (op : Nat) (a b c : Nat) (hop : op < 16) (ha : a < 8) (hb : b < 8)
    (hc : c < 8) : opField (encodeR3 op a b c) = op := by
  simp only [opField, bits, encodeR3, BitVec.toNat_ofNat]
  omega

theorem opField_encodeLv (a literal : Nat) (ha : a < 8) (hl : literal < 33554432) :
    opField (encodeLv a literal) = 13 := by
  simp only [opField, bits, encodeLv, BitVec.toNat_ofNat]
  omega

namespace EncodedOpcode

/-- The top four bits of an instruction's word are its opcode (30_encoding.md R60, R65). -/
def Statement (i : Instr) : Prop := WellFormed i = true → opField (encode i) = i.opcode

theorem cmov (a b c : Reg) : Statement (.cmov a b c) :=
  fun _ => opField_encodeR3 0 a b c (by decide) a.isLt b.isLt c.isLt
theorem sload (a b c : Reg) : Statement (.sload a b c) :=
  fun _ => opField_encodeR3 1 a b c (by decide) a.isLt b.isLt c.isLt
theorem sstore (a b c : Reg) : Statement (.sstore a b c) :=
  fun _ => opField_encodeR3 2 a b c (by decide) a.isLt b.isLt c.isLt
theorem add (a b c : Reg) : Statement (.add a b c) :=
  fun _ => opField_encodeR3 3 a b c (by decide) a.isLt b.isLt c.isLt
theorem mul (a b c : Reg) : Statement (.mul a b c) :=
  fun _ => opField_encodeR3 4 a b c (by decide) a.isLt b.isLt c.isLt
theorem div (a b c : Reg) : Statement (.div a b c) :=
  fun _ => opField_encodeR3 5 a b c (by decide) a.isLt b.isLt c.isLt
theorem nand (a b c : Reg) : Statement (.nand a b c) :=
  fun _ => opField_encodeR3 6 a b c (by decide) a.isLt b.isLt c.isLt
theorem halt : Statement .halt := fun _ => by decide
theorem map (b c : Reg) : Statement (.map b c) :=
  fun _ => opField_encodeR3 8 0 b c (by decide) (by decide) b.isLt c.isLt
theorem unmap (c : Reg) : Statement (.unmap c) :=
  fun _ => opField_encodeR3 9 0 0 c (by decide) (by decide) (by decide) c.isLt
theorem out (c : Reg) : Statement (.out c) :=
  fun _ => opField_encodeR3 10 0 0 c (by decide) (by decide) (by decide) c.isLt
theorem inp (c : Reg) : Statement (.inp c) :=
  fun _ => opField_encodeR3 11 0 0 c (by decide) (by decide) (by decide) c.isLt
theorem loadprog (b c : Reg) : Statement (.loadprog b c) :=
  fun _ => opField_encodeR3 12 0 b c (by decide) (by decide) b.isLt c.isLt
theorem loadv (a : Reg) (literal : Nat) : Statement (.loadv a literal) := fun h =>
  opField_encodeLv a literal a.isLt (by simpa [WellFormed, literalFits] using h)
theorem illegal14 : Statement .illegal14 := fun _ => by decide
theorem illegal15 : Statement .illegal15 := fun _ => by decide

end EncodedOpcode

end Sys2Proof.Laws
end

