-- ==== Sys2Proof/Tests/Slice0.lean ====
section
/-! SUPPORT. Tests and witnesses. Expected values are those of spec/95_test_vectors.md (the row is named
in each comment) or of the encodings of spec/30_encoding.md; a witness shows a concrete state and
operands that meet all the hypotheses of the obligation it is named after. -/

namespace Sys2Proof.Tests

open Sys2Proof.Machine

/-- The next state of an outcome, if it is one. -/
def nextOf : Host.Outcome State Fault Refusal → Option State
  | .next t => some t
  | .fault _ => none
  | .refused _ => none

/-- The state after one instruction. -/
def after (i : Instr) (s : State) : Option State := nextOf (exec i s)

/-- A slot that holds the words. -/
def seg (ws : List Word) : Slot := .segment (.ofWords ws)

/-- The state after reset with other registers, store and program length. -/
def machine (regs : Vector Word 8) (slots : List Slot) (pool : List Word) : State :=
  let m : Memory := { slots := slots, pool := pool }
  { State.reset with regs := regs, mem := m, programLength := (m.len? 0#32).getD 0#32 }

/-- Registers x1 and x2 as given, x3 holding 7, an empty program. -/
def alu (x1 x2 : Word) : State := machine #v[0#32, x1, x2, 7#32, 0#32, 0#32, 0#32, 0#32] [seg []] []

/-- The cause of the fault a state records. -/
def causeOf (s : State) : Option FaultCause := s.fault.map FaultRecord.cause

/-! ### Well-formedness: the one check, its boundary, and the encodings that need none -/

theorem test_wf_literal_too_large : WellFormed (.loadv 0 33554432) = false := by decide
theorem test_wf_literal_largest : WellFormed (.loadv 0 33554431) = true := by decide
theorem test_wf_registers_need_no_check : WellFormed (.cmov 7 7 7) = true := by decide

/-! ### Decoding: words of 95_test_vectors.md section 2.1 and of the programs of its section 3 -/

theorem test_decode_cmov : decode 0x000000E2#32 = .cmov 3 4 2 := by decide
theorem test_decode_sload : decode 0x10000053#32 = .sload 1 2 3 := by decide
theorem test_decode_sstore : decode 0x2000010D#32 = .sstore 4 1 5 := by decide
theorem test_decode_add_ignores_bits : decode 0x3FFFFFFF#32 = .add 7 7 7 := by decide
theorem test_decode_mul : decode 0x400001FF#32 = .mul 7 7 7 := by decide
theorem test_decode_div : decode 0x500000CA#32 = .div 3 1 2 := by decide
theorem test_decode_nand : decode 0x60000089#32 = .nand 2 1 1 := by decide
theorem test_decode_halt_ignores_bits : decode 0x7ABCDE12#32 = .halt := by decide
theorem test_decode_map : decode 0x80000035#32 = .map 6 5 := by decide
theorem test_decode_unmap : decode 0x90000003#32 = .unmap 3 := by decide
theorem test_decode_out : decode 0xA0000001#32 = .out 1 := by decide
theorem test_decode_in : decode 0xB0000001#32 = .inp 1 := by decide
theorem test_decode_loadprog : decode 0xC0000030#32 = .loadprog 6 0 := by decide
theorem test_decode_loadv : decode 0xDE00002A#32 = .loadv 7 42 := by decide
theorem test_decode_loadv_largest : decode 0xD1FFFFFF#32 = .loadv 0 33554431 := by decide
theorem test_decode_illegal14 : decode 0xE0000000#32 = .illegal14 := by decide
theorem test_decode_illegal15 : decode 0xFFFFFFFF#32 = .illegal15 := by decide

/-- The bytes of a file are big-endian (20_memory.md R46 (a)). -/
theorem test_decode_bytes :
    (decodeBytes [0xDE#8, 0x00#8, 0x00#8, 0x2A#8, 0x70#8]).toOption = some (.loadv 7 42, [0x70#8]) := by
  decide

/-- A stream that ends inside a word is rejected by name. -/
theorem test_decode_bytes_truncated :
    decodeBytes [0xDE#8, 0x00#8, 0x00#8] = .error (.truncated 3) := rfl

theorem test_decode_table_word : decodeTableWord 32 0xB0000001 = some (.inp 1) := by decide

/-- The canonical words of 30_encoding.md R70. -/
theorem test_encode :
    encode (.add 6 4 5) = 0x300001A5#32 ∧ encode (.loadprog 6 0) = 0xC0000030#32 ∧
    encode (.loadv 5 0x1000000) = 0xDB000000#32 := by decide

/-! ### One instruction, one step -/

/-- CMOV rows 2 and 4 of section 2.2. -/
theorem test_cmov_zero : (after (.cmov 3 1 2) (alu 9#32 0#32)).map (·.x 3) = some 7#32 := by decide
theorem test_cmov_high_bit :
    (after (.cmov 3 1 2) (alu 9#32 0x80000000#32)).map (·.x 3) = some 9#32 := by decide

/-- Section 2.2, ADD: a wrap, and a source that is also the destination. -/
theorem test_add_wraps :
    (after (.add 3 1 2) (alu 0x12345678#32 0x9ABCDEF0#32)).map (·.x 3) = some 0xACF13568#32 := by decide
theorem test_add_same_register :
    (after (.add 1 1 1) (alu 0x40000001#32 0#32)).map (·.x 1) = some 0x80000002#32 := by decide

/-- Section 2.2, MUL. -/
theorem test_mul_wraps :
    (after (.mul 3 1 2) (alu 0x12345678#32 0x9ABCDEF0#32)).map (·.x 3) = some 0x242D2080#32 := by decide
theorem test_mul_all_ones :
    (after (.mul 3 1 2) (alu 0xFFFFFFFF#32 0xFFFFFFFF#32)).map (·.x 3) = some 1#32 := by decide

/-- Section 2.2, DIV: unsigned, and divisor 0 with x[A] unchanged. -/
theorem test_div_is_unsigned :
    (after (.div 3 1 2) (alu 0xFFFFFFFF#32 2#32)).map (·.x 3) = some 0x7FFFFFFF#32 := by decide
theorem test_div_by_zero :
    (after (.div 3 1 2) (alu 5#32 0#32)).map (fun t => (causeOf t, t.x 3)) =
      some (some .divideByZero, 7#32) := by decide

/-- Section 2.2, NAND. -/
theorem test_nand :
    (after (.nand 3 1 2) (alu 0xF0F0F0F0#32 0x0FF00FF0#32)).map (·.x 3) = some 0xFF0FFF0F#32 := by
  decide

/-- Section 2.2, LOADV: not sign-extended, upper bits cleared. -/
theorem test_loadv :
    (after (.loadv 1 0x1FFFFFF) (alu 0xFFFFFFFF#32 0#32)).map (·.x 1) = some 0x01FFFFFF#32 := by decide

/-- The state after M2 of section 2.3, with x5 = 3 and x6 = 0xCAFE. -/
def afterM2 : State :=
  machine #v[0#32, 4#32, 1#32, 0#32, 2#32, 3#32, 0xCAFE#32, 0#32]
    [seg [], seg [0#32, 0#32, 0#32, 0#32], seg []] []

/-- M1: MAP from reset. -/
theorem test_map_first :
    (after (.map 2 1) (alu 4#32 0#32)).map (fun t => (t.x 2, t.mem.len? 1#32, t.mem.tableSize)) =
      some (1#32, some 4#32, 2) := by decide

/-- M12: the identifier comes back, the 0xCAFE is gone. -/
theorem test_map_recycles_zeroed :
    (after (.map 7 1) (machine #v[0#32, 4#32, 1#32, 0#32, 2#32, 3#32, 0xCAFE#32, 0#32]
      [seg [], .tombstone, seg []] [1#32])).map
        (fun t => (t.x 7, t.mem.slots[1]?, t.mem.pool, t.mem.tableSize)) =
      some (1#32, some (seg [0#32, 0#32, 0#32, 0#32]), [], 3) := by decide

/-- M3 and M5: SLOAD of a zero-filled cell, and of the empty segment 2. -/
theorem test_sload_zero_filled :
    (after (.sload 6 2 5) afterM2).map (·.x 6) = some 0#32 := by decide
theorem test_sload_empty_segment :
    (after (.sload 6 4 3) afterM2).map (fun t => (causeOf t, t.x 6)) =
      some (some .offsetOutOfRange, 0xCAFE#32) := by decide

/-- M6: SSTORE, the other cells still 0. -/
theorem test_sstore :
    (after (.sstore 2 5 6) afterM2).map (·.mem.slots[1]?) =
      some (some (seg [0#32, 0#32, 0#32, 0xCAFE#32])) := by decide

/-- M10: SSTORE through a tombstone. -/
theorem test_sstore_tombstone :
    (after (.sstore 2 5 6) { afterM2 with mem := ⟨[seg [], .tombstone, seg []], [1#32]⟩ }).map causeOf =
      some (some .unmappedSegment) := by decide

/-- M8: UNMAP; the table keeps its size. M16: UNMAP of 0. -/
theorem test_unmap :
    (after (.unmap 2) afterM2).map (fun t => (t.mem, t.x 2)) =
      some (⟨[seg [], .tombstone, seg []], [1#32]⟩, 1#32) := by decide
theorem test_unmap_zero : (after (.unmap 0) afterM2).map causeOf = some (some .unmapZero) := by decide

/-- K1: HALT; the store stays (43_control.md R121). -/
theorem test_halt :
    (after .halt afterM2).map (fun t => (t.halted, t.status, t.mem == afterM2.mem)) =
      some (true, .halted, true) := by decide

/-- The state of K5 of section 2.4. -/
def beforeK5 : State :=
  machine #v[0#32, 0#32, 1#32, 1#32, 0#32, 0#32, 0#32, 0#32]
    [seg [1#32], seg [0xDE00002A#32, 0x70000000#32]] []

/-- K6: LOADPROG copies over segment 0 and jumps. K4: the jump is not checked, and is a normal end. -/
theorem test_loadprog_copies :
    (after (.loadprog 2 3) beforeK5).map (fun t => (t.mem.slots[0]?, t.programLength, t.pc, t.status)) =
      some (some (seg [0xDE00002A#32, 0x70000000#32]), 2#32, 1#32, .running) := by decide
theorem test_loadprog_jump_out_of_range :
    (after (.loadprog 0 1) (alu 0xFFFFFFFF#32 0#32)).map (fun t => (t.pc, t.status, causeOf t)) =
      some (0xFFFFFFFF#32, .ended, none) := by decide

/-- I2 and I3. -/
theorem test_out_255 : (after (.out 1) (alu 255#32 0#32)).map (·.out) = some [0xFF#8] := by decide
theorem test_out_256 :
    (after (.out 1) (alu 256#32 0#32)).map (fun t => (causeOf t, t.out)) =
      some (some .outputRange, []) := by decide

/-- I8: the byte 0xFF is no end of input. I6: at the end nothing is consumed. -/
theorem test_in_byte :
    (after (.inp 1) { alu 5#32 0#32 with params.input := .finite [0xFF#8] }).map
      (fun t => (t.x 1, t.inPos)) = some (0xFF#32, 1) := by decide
theorem test_in_at_end :
    (after (.inp 1) { alu 5#32 0#32 with params.input := .finite [0x41#8], inPos := 1 }).map
      (fun t => (t.x 1, t.inPos)) = some (0xFFFFFFFF#32, 1) := by decide

/-- K12: an illegal word; addr = a, pc = a + 1. -/
theorem test_illegal14 :
    (nextOf (step (State.reset.withFetchWord 32 0xE0000000))).map (fun t => (t.fault, t.pc)) =
      some (some ⟨.illegalInstruction, 0#32, 0xE0000000#32⟩, 1#32) := by decide
theorem test_illegal15 :
    (nextOf (step (State.reset.withFetchWord 32 0xFFFFFFFF))).map (·.fault) =
      some (some ⟨.illegalInstruction, 0#32, 0xFFFFFFFF#32⟩) := by decide

/-! ### The step -/

/-- 0xD6000041 is LOADV x3, 0x41 (section 2.2): the first instruction after reset. -/
theorem test_step_runs_the_word_placed :
    (nextOf (step (State.reset.withFetchWord 32 0xD6000041))).map (fun t => (t.x 3, t.pc, t.status)) =
      some (0x41#32, 1#32, .ended) := by decide

/-- K13: an empty program ends at once. -/
theorem test_reset_is_ended : State.reset.status = .ended := by decide

/-- Vector V-SM: the word stored is the next one executed. -/
theorem test_self_modification :
    ((nextOf (step (machine #v[0#32, 1#32, 0x70000000#32, 0x41#32, 0#32, 0#32, 0#32, 0#32]
      [seg [0x2000000A#32, 0xA0000003#32, 0x70000000#32]] []))).bind
        (fun t => nextOf (step t))).map (fun u => (u.halted, u.pc, u.out)) =
      some (true, 2#32, []) := by decide

/-- A program file, big-endian (20_memory.md R46 (a)); an odd length has no words (log 23). -/
theorem test_words_of_file :
    wordsOfFile [0xD6#8, 0#8, 0#8, 0x41#8] = some [0xD6000041#32] ∧ wordsOfFile [0#8] = none := by decide

/-! ### Witnesses

One state for most of them: four slots, of which slot 2 is a tombstone and slot 3 is empty, and a
program at every offset of which some statement has a step. -/

/-- SSTORE x0, x1, x6; IN x1; LOADPROG x1, x0; LOADPROG x1, x3; an illegal word. -/
def demoStore : Memory :=
  { slots := [seg [0x2000000E#32, 0xB0000001#32, 0xC0000008#32, 0xC000000B#32, 0xE0000000#32],
      seg [0xDE00002A#32, 0x70000000#32], .tombstone, seg []]
    pool := [2#32] }

def demo : State :=
  { machine #v[0#32, 1#32, 2#32, 3#32, 255#32, 256#32, 0x70000000#32, 0#32] demoStore.slots
      demoStore.pool with
    params := { input := .finite [0x41#8], alloc := .always, maxSlots := 5 } }

/-- The same with an empty pool and no tombstone. -/
def full : State :=
  { demo with mem := { slots := [seg [0#32], seg [0xDE00002A#32, 0x70000000#32]], pool := [] } }

theorem demoStore_sound : demoStore.Sound := by
  refine ⟨by decide, by decide, by decide, fun id => ?_⟩
  constructor
  · intro h
    simp only [demoStore, List.mem_singleton] at h
    subst h
    decide
  · intro h
    have hid : id.toNat = 2 := by
      rcases hn : id.toNat with _ | _ | _ | _ | n <;> simp_all [demoStore, seg]
    have : id = 2#32 := BitVec.eq_of_toNat_eq hid
    simp [demoStore, this]

/-- The invariant in a running state. -/
theorem demo_inv : demo.Inv where
  params := by decide
  store := demoStore_sound
  tableSize := by decide
  programLength := by decide
  input := by
    intro bytes h
    cases h
    decide
  faultNotHalted := by decide
  faultAddr := by intro r h; cases h
  faultWord := by intro r h; cases h

theorem demo_runs : demo.status = .running := by decide

/-- The three terminal statuses occur. -/
theorem witness_NoStepLeavesATerminalStatus :
    { demo with halted := true }.status = .halted ∧ { demo with pc := 5#32 }.status = .ended ∧
      (demo.raise .divideByZero).status = .faulted ∧ ∃ t, step demo = .next t :=
  ⟨by decide, by decide, by decide, _, rfl⟩

theorem witness_DecodeOfEncodeIsTheInstruction :
    WellFormed (.loadv 7 33554431) = true ∧ WellFormed (.cmov 1 2 3) = true := by decide

theorem witness_ThreeRegisterFormatDecodes :
    524287 < 2 ^ 19 ∧ wordR3 3 524287 7 7 7 = 0x3FFFFFFF#32 := by decide

theorem witness_UnusedRegisterFieldsAreIgnored :
    524287 < 2 ^ 19 ∧ wordR3 7 524287 7 7 7 = 0x7FFFFFFF#32 := by decide

theorem witness_LoadValueFormatDecodes :
    33554431 < 2 ^ 25 ∧ opField 0xDFFFFFFF#32 = 13 ∧ decode 0xDFFFFFFF#32 = decode 0xDFFFFFFF#32 := by
  decide

theorem witness_MaskAndMatchSelectTheRow :
    15 < 16 ∧ 0xFFFFFFFF#32 &&& 0xF0000000#32 = BitVec.ofNat 32 (15 * 2 ^ 28) ∧
      (decode 0xE0000000#32).opcode = 14 := by decide

theorem witness_LoadedMachineIsTheResetState :
    [0x70000000#32].length < 2 ^ 32 ∧ 1 ≤ demo.params.maxSlots ∧
      Memory.empty.admits demo.params 1#32 = true := by decide

theorem witness_ProgramFileIsBigEndianWords : [0x70#8, 0#8, 0#8, 0#8, 1#8].length % 4 ≠ 0 := by decide

/-- Lengths other than 0 and 1: x4 = 255 and x5 = 256. -/
theorem witness_FirstMapsAfterResetReturnOneThenTwo :
    ∃ loaded s : State, demo.params.alloc = .always ∧ 3 ≤ demo.params.maxSlots ∧
      State.load demo.params [0x70000000#32] = some loaded ∧ s.mem = loaded.mem ∧
      s.params = demo.params ∧ s.x 4 = 255#32 ∧ s.x 5 = 256#32 := by
  refine ⟨_, { demo with mem := (⟨[seg [0x70000000#32]], []⟩ : Memory) }, by decide, by decide, rfl,
    rfl, rfl, by decide, by decide⟩

theorem witness_LoadedMachineMeetsTheInvariant :
    ∃ s, ParamsOk demo.params ∧ State.load demo.params [0x70000000#32] = some s :=
  ⟨_, by decide, rfl⟩

theorem witness_CmovMovesIfConditionNonZero : demo.x 1 ≠ 0#32 ∧ demo.x 0 = 0#32 := by decide

theorem witness_DivWritesGreatestQuotient : demo.x 1 ≠ 0#32 ∧ demo.x 6 ≠ 0#32 := by decide

theorem witness_DivByZeroFaults : demo.x 0 = 0#32 := by decide

theorem witness_LoadvWritesTheLiteral :
    WellFormed (.loadv 0 0) = true ∧ WellFormed (.loadv 7 33554431) = true := by decide

/-- A tombstone, an identifier at the table size, an offset at the length, and one below it. -/
theorem witness_GetChecksIdentifierThenOffset :
    demoStore.mapped 2#32 = false ∧ demoStore.mapped 4#32 = false ∧
      ∃ g, demoStore.segment? 1#32 = some g ∧ g.len ≤ 2#32 ∧ 1#32 < g.len :=
  ⟨by decide, by decide, _, rfl, by decide, by decide⟩

theorem witness_SloadWritesTheCell : demo.mem.len? (demo.x 1) = some 2#32 ∧ demo.x 1 < 2#32 := by decide

theorem witness_SstoreWritesOneCell :
    demo.mem.wf = true ∧ demo.mem.len? (demo.x 1) = some 2#32 ∧ demo.x 1 < 2#32 := by decide

theorem witness_StoreThenLoadIsTheIdentity :
    demo.mem.wf = true ∧ demo.mem.len? (demo.x 1) = some 2#32 ∧ demo.x 0 < 2#32 := by decide

/-- Each of the four clauses; the offset 2 is the length of segment 1, and segment 3 is empty. -/
theorem witness_LoadAndStoreOutsideTheStoreFault :
    demo.mem.mapped (demo.x 2) = false ∧ demo.mem.mapped (demo.x 4) = false ∧
      (demo.mem.len? (demo.x 1) = some 2#32 ∧ 2#32 ≤ demo.x 2) ∧
      (demo.mem.len? (demo.x 3) = some 0#32 ∧ 0#32 ≤ demo.x 0) := by decide

theorem witness_MapReusesTheLastUnmapped :
    demo.mem.Sound ∧ demo.mem.pool = 2#32 :: [] ∧ demo.mem.admits demo.params (demo.x 1) = true :=
  ⟨demoStore_sound, by decide, by decide⟩

/-- The last slot: three slots of at most three after the append. -/
theorem witness_MapAppendsWhenThePoolIsEmpty :
    { full with params.maxSlots := 3 }.params.maxSlots ≤ 2 ^ 32 ∧ full.mem.pool = [] ∧
      full.mem.tableSize < { full with params.maxSlots := 3 }.params.maxSlots ∧
      full.mem.admits { full with params.maxSlots := 3 }.params (full.x 1) = true := by decide

/-- A refused allocation, and a full table. -/
theorem witness_MapRefusedByCapacityFaults :
    { demo with params.alloc := .upTo 7 }.mem.admits { demo with params.alloc := .upTo 7 }.params
        (demo.x 1) = false ∧
      full.mem.pool = [] ∧ { full with params.maxSlots := 2 }.params.maxSlots ≤ full.mem.tableSize := by
  decide

theorem witness_UnmapReleasesTheSegment :
    demo.x 1 ≠ 0#32 ∧ demo.mem.mapped (demo.x 1) = true := by decide

theorem witness_UnmapOfZeroOrUnmappedFaults :
    demo.x 0 = 0#32 ∧ (demo.x 2 ≠ 0#32 ∧ demo.mem.mapped (demo.x 2) = false) := by decide

theorem witness_UnmappedIdentifiersComeBackLastFirst :
    demo.mem.Sound ∧ demo.params.alloc = .always ∧ demo.x 1 ≠ 0#32 ∧ demo.x 3 ≠ 0#32 ∧
      demo.x 1 ≠ demo.x 3 ∧ demo.mem.mapped (demo.x 1) = true ∧ demo.mem.mapped (demo.x 3) = true :=
  ⟨demoStore_sound, by decide, by decide, by decide, by decide, by decide, by decide⟩

theorem witness_NoStaleWordAfterReuse :
    ∃ t u, demo.fault = none ∧ demo.mem.Sound ∧ exec (.unmap 1) demo = .next t ∧ t.fault = none ∧
      exec (.map 7 4) t = .next u ∧ u.fault = none :=
  ⟨_, _, rfl, demoStore_sound, rfl, by decide, rfl, by decide⟩

theorem witness_HaltSetsHaltedAndNothingElse : demo.fault = none := by decide

theorem witness_LoadprogOfZeroIsAJump :
    demo.x 0 = 0#32 ∧ demo.mem.len? 0#32 = some demo.programLength := by decide

theorem witness_LoadprogCopiesTheSourceOverSegmentZero :
    demo.x 1 ≠ 0#32 ∧ demo.mem.mapped 0#32 = true ∧ demo.mem.len? (demo.x 1) = some 2#32 ∧
      demo.mem.admits demo.params 2#32 = true := by decide

theorem witness_LoadprogFromUnmappedOrRefusedFaults :
    (demo.x 2 ≠ 0#32 ∧ demo.mem.mapped (demo.x 2) = false) ∧
      (demo.x 1 ≠ 0#32 ∧ demo.mem.len? (demo.x 1) = some 2#32 ∧
        demo.mem.admits { demo with params.alloc := .upTo 8 }.params 2#32 = false) := by decide

/-- Both clauses: a store to the source, and a store to segment 0. -/
theorem witness_LoadedCopyIsIndependentOfItsSource :
    demo.mem.Sound ∧ demo.x 1 ≠ 0#32 ∧ ∃ t u v, exec (.loadprog 1 0) demo = .next t ∧
      exec (.sstore 1 0 5) t = .next u ∧ t.x 1 = demo.x 1 ∧ u.fault = none ∧
      exec (.sstore 0 1 5) t = .next v ∧ t.x 0 = 0#32 ∧ v.fault = none :=
  ⟨demoStore_sound, by decide, _, _, _, rfl, rfl, by decide, by decide, rfl, by decide, by decide⟩

theorem witness_OutEmitsTheByte : demo.x 4 = 255#32 ∧ demo.x 4 ≤ 255#32 := by decide

theorem witness_OutAbove255Faults : demo.x 5 = 256#32 ∧ 255#32 < demo.x 5 := by decide

/-- A byte left, none left, and an infinite INPUT with a listed byte. -/
theorem witness_InReadsTheNextByteOrAllOnes :
    (demo.params.input = .finite [0x41#8] ∧ [0x41#8][demo.inPos]? = some 0x41#8) ∧
      ([0x41#8].length ≤ { demo with inPos := 1 }.inPos) ∧
      { demo with params.input := .infinite [0x41#8] }.params.input = .infinite [0x41#8] := by decide

/-- At the illegal word of the program, and at the two ends of the range of such words. -/
theorem witness_IllegalOpcodesFault :
    { demo with pc := 4#32 }.status = .running ∧ demo.mem.get 0#32 4#32 = .ok 0xE0000000#32 ∧
      0xE0000000#32 ≤ 0xE0000000#32 ∧ 0xE0000000#32 ≤ 0xFFFFFFFF#32 :=
  ⟨by decide, rfl, by decide, by decide⟩

theorem witness_StepRunsTheDecodedInstruction :
    demo.status = .running ∧ demo.mem.get 0#32 demo.pc = .ok 0x2000000E#32 ∧
      decode 0x2000000E#32 = .sstore 0 1 6 :=
  ⟨by decide, rfl, by decide⟩

theorem witness_RunningMachineAlwaysSteps : demo.Inv ∧ demo.status = .running := ⟨demo_inv, demo_runs⟩

theorem witness_EveryStepKeepsTheInvariant : ∃ t, demo.Inv ∧ step demo = .next t :=
  ⟨_, demo_inv, rfl⟩

theorem witness_FaultingInstructionHasNoOtherEffect :
    ∃ t, demo.fault = none ∧ exec (.sload 6 1 2) demo = .next t ∧ t.fault ≠ none :=
  ⟨_, rfl, rfl, by decide⟩

/-- Every cause occurs. -/
theorem witness_EachFaultCauseHasItsInstructionAndCondition :
    demo.fault = none ∧ demo.mem.mapped 0#32 = true ∧
      (after .illegal14 demo).bind causeOf = some .illegalInstruction ∧
      (after (.div 1 1 0) demo).bind causeOf = some .divideByZero ∧
      (after (.out 5) demo).bind causeOf = some .outputRange ∧
      (after (.loadprog 2 0) demo).bind causeOf = some .unmappedSegment ∧
      (after (.sstore 1 2 0) demo).bind causeOf = some .offsetOutOfRange ∧
      (after (.unmap 0) demo).bind causeOf = some .unmapZero ∧
      (after (.unmap 2) demo).bind causeOf = some .unmapUnmapped ∧
      (after (.map 7 1) { demo with params.alloc := .upTo 7 }).bind causeOf =
        some .resourceExhausted := by decide

/-- HALT sets the flag, another instruction runs without it, and a halted state exists. -/
theorem witness_HaltedIsSetByHaltAlone :
    (∃ t, exec .halt demo = .next t) ∧ (∃ t, exec (.add 1 1 1) demo = .next t ∧ Instr.add 1 1 1 ≠ .halt) ∧
      { demo with halted := true }.halted = true :=
  ⟨⟨_, rfl⟩, ⟨_, rfl, by decide⟩, rfl⟩

theorem witness_ProgramLengthIsChangedByLoadprogAlone :
    ∃ t, demo.mem.len? 0#32 = some demo.programLength ∧ exec (.loadprog 1 0) demo = .next t ∧
      t.programLength ≠ demo.programLength :=
  ⟨_, by decide, rfl, by decide⟩

/-- A step that is no LOADPROG, one that is, and a LOADPROG that faults: with x1 = 2, a tombstone. -/
theorem witness_PcIsIncrementedUnlessLoadprogWritesIt :
    (∃ t, demo.status = .running ∧ demo.mem.get 0#32 demo.pc = .ok 0x2000000E#32 ∧
      step demo = .next t ∧ ∀ b c, decode 0x2000000E#32 ≠ .loadprog b c) ∧
    (∃ t, { demo with pc := 2#32 }.status = .running ∧ demo.mem.get 0#32 2#32 = .ok 0xC0000008#32 ∧
      step { demo with pc := 2#32 } = .next t ∧ decode 0xC0000008#32 = .loadprog 1 0 ∧
      t.fault = none) ∧
    ∃ t, ({ demo with pc := 2#32 }.setX 1 2#32).status = .running ∧
      step ({ demo with pc := 2#32 }.setX 1 2#32) = .next t ∧ causeOf t = some .unmappedSegment :=
  ⟨⟨_, by decide, rfl, rfl, by decide⟩, ⟨_, by decide, rfl, rfl, by decide, by decide⟩,
    ⟨_, by decide, rfl, by decide⟩⟩

/-- Each clause, with a CMOV whose condition is not 0 and one whose condition is, and a listed register
that is also the destination. -/
theorem witness_RegistersReadAndWrittenAreThoseOfTheTable :
    (∃ t, exec (.cmov 3 1 2) demo = .next t ∧ (Instr.cmov 3 1 2).dest ≠ some 4 ∧
      (4 : Reg) ∉ (Instr.cmov 3 1 2).reads ∧ (3 : Reg) ∉ (Instr.cmov 3 1 2).reads ∧
      (Instr.cmov 3 1 2).dest = some 3 ∧ demo.fault = none ∧ t.fault = none ∧ demo.x 2 ≠ 0#32) ∧
    (∃ t, exec (.cmov 3 1 0) demo = .next t ∧ demo.x 0 = 0#32) ∧
    (∀ a c, Instr.add 1 1 2 ≠ .cmov a a c) ∧ (1 : Reg) ∈ (Instr.add 1 1 2).reads ∧
    (Instr.add 1 1 2).dest = some 1 ∧ ∀ a c, Instr.cmov 3 1 3 ≠ .cmov a a c :=
  ⟨⟨_, rfl, by decide, by decide, by decide, by decide, by decide, by decide, by decide⟩,
    ⟨_, rfl, by decide⟩, by decide, by decide, by decide, by decide⟩

/-- Both streams move. -/
theorem witness_StreamsAreMovedByOutAndInAlone :
    (∃ t, exec (.out 4) demo = .next t ∧ t.out ≠ demo.out) ∧
      ∃ t, exec (.inp 1) demo = .next t ∧ t.inPos ≠ demo.inPos :=
  ⟨⟨_, rfl, by decide⟩, ⟨_, rfl, by decide⟩⟩

/-- A cell changed by SSTORE, and one changed by LOADPROG. -/
theorem witness_CellsChangeByStoreOrProgramCopyAlone :
    (∃ t, demo.mem.Sound ∧ exec (.sstore 1 1 5) demo = .next t ∧
      demo.mem.get 1#32 1#32 = .ok 0x70000000#32 ∧ t.mem.get 1#32 1#32 = .ok 256#32) ∧
    ∃ t, exec (.loadprog 1 0) demo = .next t ∧ demo.mem.get 0#32 0#32 = .ok 0x2000000E#32 ∧
      t.mem.get 0#32 0#32 = .ok 0xDE00002A#32 :=
  ⟨⟨_, demoStore_sound, rfl, rfl, rfl⟩, ⟨_, rfl, rfl, rfl⟩⟩

/-- A length that changes, an identifier that ceases, one that begins, and a table that grows. -/
theorem witness_SegmentsComeAndGoByMapAndUnmapAlone :
    demo.mem.Sound ∧
      (∃ t, exec (.loadprog 1 0) demo = .next t ∧ demo.mem.len? 0#32 = some 5#32 ∧
        t.mem.len? 0#32 = some 2#32) ∧
      (∃ t, exec (.unmap 1) demo = .next t ∧ demo.mem.mapped 1#32 = true ∧
        t.mem.mapped 1#32 = false) ∧
      (∃ t, exec (.map 7 1) demo = .next t ∧ demo.mem.mapped 2#32 = false ∧
        t.mem.mapped 2#32 = true) ∧
      ∃ t, exec (.map 7 1) full = .next t ∧ t.mem.tableSize = full.mem.tableSize + 1 :=
  ⟨demoStore_sound, ⟨_, rfl, by decide, by decide⟩, ⟨_, rfl, by decide, by decide⟩,
    ⟨_, rfl, by decide, by decide⟩, ⟨_, rfl, by decide⟩⟩

theorem witness_StoreOverTheNextInstructionIsExecuted :
    demo.Inv ∧ demo.status = .running ∧ demo.mem.get 0#32 demo.pc = .ok 0x2000000E#32 ∧
      decode 0x2000000E#32 = .sstore 0 1 6 ∧ demo.x 0 = 0#32 ∧ demo.x 1 = demo.pc + 1#32 ∧
      demo.pc + 1#32 < demo.programLength :=
  ⟨demo_inv, by decide, rfl, by decide, by decide, by decide, by decide⟩

theorem demo_inv_at (pc : Word) : ({ demo with pc := pc } : State).Inv :=
  ⟨demo_inv.params, demo_inv.store, demo_inv.tableSize, demo_inv.programLength, demo_inv.input,
    demo_inv.faultNotHalted, fun _ h => (by cases h), fun _ h => (by cases h)⟩

/-- A target inside the new program, and one at its end or past it. -/
theorem witness_AfterLoadprogTheNewProgramRuns :
    { demo with pc := 2#32 }.Inv ∧ { demo with pc := 2#32 }.status = .running ∧
      demo.mem.get 0#32 2#32 = .ok 0xC0000008#32 ∧ decode 0xC0000008#32 = .loadprog 1 0 ∧
      { demo with pc := 3#32 }.Inv ∧ { demo with pc := 3#32 }.status = .running ∧
      demo.mem.get 0#32 3#32 = .ok 0xC000000B#32 ∧ decode 0xC000000B#32 = .loadprog 1 3 ∧
      demo.x 1 ≠ 0#32 ∧ demo.mem.len? (demo.x 1) = some 2#32 ∧
      demo.mem.admits demo.params 2#32 = true ∧ demo.x 0 < 2#32 ∧ 2#32 ≤ demo.x 3 :=
  ⟨demo_inv_at _, by decide, rfl, by decide, demo_inv_at _, by decide, rfl, by decide, by decide,
    by decide, by decide, by decide, by decide⟩

theorem witness_StepSeesOnlyTheNextInput :
    ∃ t, inputAt (.finite [0x41#8, 0x42#8]) demo.inPos = inputAt demo.params.input demo.inPos ∧
      step demo = .next t :=
  ⟨_, by decide, rfl⟩

theorem witness_ExitStatusIsZeroOnNormalEndAlone :
    demo.status = .running ∧ { demo with halted := true }.status = .halted ∧
      { demo with pc := 5#32 }.status = .ended ∧ (demo.raise .divideByZero).status = .faulted := by
  decide

theorem witness_DeliveredOutputIsAPrefix :
    { demo with halted := true }.status = .halted ∧ { demo with pc := 5#32 }.status = .ended ∧
      (demo.raise .divideByZero).status = .faulted := by decide

end Sys2Proof.Tests
end

namespace Sys2Proof.Machine

/-! SUPPORT. What an instruction does, as data: exec is the application of one of nine effects, which
is a function of the registers the instruction reads, the store, the parameters and the input
position. Frames and noninterference are then facts about nine effects. -/

/-- The effect of one instruction on the state. -/
inductive Effect where
  | fault (cause : FaultCause)
  | nothing
  | write (r : Reg) (v : Word)
  | store (m : Memory)
  | mapped (r : Reg) (id : Word) (m : Memory)
  | halt
  | emit (b : Byte)
  | input (r : Reg) (b : Byte)
  | load (m : Memory) (length target : Word)

/-- The state after an effect, in the terms of the model's own operations. -/
def Effect.apply : Effect → State → State
  | .fault cause, s => s.raise cause
  | .nothing, s => s
  | .write r v, s => s.setX r v
  | .store m, s => { s with mem := m }
  | .mapped r id m, s => State.setX { s with mem := m } r id
  | .halt, s => s.halt
  | .emit b, s => s.emit b
  | .input r b, s => s.consumeInput.setX r (zextByte b)
  | .load m length target, s => State.setPc { s with mem := m, programLength := length } target

/-- The effect of an operation that may raise a fault (the counterpart of `State.orRaise`). -/
def Effect.ofResult {α : Type} (result : Except FaultCause α) (effect : α → Effect) : Effect :=
  match result with
  | .error cause => .fault cause
  | .ok a => effect a

@[simp] theorem Effect.ofResult_error {α : Type} (cause : FaultCause) (effect : α → Effect) :
    Effect.ofResult (.error cause) effect = .fault cause := rfl

@[simp] theorem Effect.ofResult_ok {α : Type} (a : α) (effect : α → Effect) :
    Effect.ofResult (.ok a) effect = effect a := rfl

/-- The effect an instruction has in a state. -/
def effectOf (i : Instr) (s : State) : Effect :=
  match i with
  | .cmov a b c => if s.x c ≠ 0#32 then .write a (s.x b) else .nothing
  | .sload a b c => .ofResult (s.memRead b c) (.write a)
  | .sstore a b c => .ofResult (s.memWrite a b c) .store
  | .add a b c => .write a (s.x b + s.x c)
  | .mul a b c => .write a (s.x b * s.x c)
  | .div a b c => .ofResult (quotient (s.x b) (s.x c)) (.write a)
  | .nand a b c => .write a (~~~(s.x b &&& s.x c))
  | .halt => .halt
  | .map b c => .ofResult (s.mem.map s.params (s.x c)) fun r => .mapped b r.1 r.2
  | .unmap c => .ofResult (s.mem.unmap (s.x c)) .store
  | .out c => .ofResult (outputByte (s.x c)) .emit
  | .inp c => s.nextInput.elim (.write c 4294967295#32) (.input c)
  | .loadprog b c =>
    .ofResult (s.mem.duplicateToZero s.params (s.x b)) fun r => .load r.1 r.2 (s.x c)
  | .loadv a literal => .write a (zextLiteral literal)
  | .illegal14 => .fault .illegalInstruction
  | .illegal15 => .fault .illegalInstruction

theorem State.orRaise_eq_apply {α : Type} (s : State) (result : Except FaultCause α)
    (effect : α → Effect) :
    s.orRaise result (fun a => (effect a).apply s) =
      .next ((Effect.ofResult result effect).apply s) := by
  cases result <;> rfl

/-- The tie to the model: an instruction answers the state its effect makes. -/
theorem exec_eq_apply (i : Instr) (s : State) : exec i s = .next ((effectOf i s).apply s) := by
  cases i with
  | cmov a b c =>
    by_cases h : s.x c = 0#32 <;> simp [exec, execCmov, effectOf, h, Effect.apply]
  | sload a b c => exact s.orRaise_eq_apply _ (.write a)
  | sstore a b c => exact s.orRaise_eq_apply _ .store
  | div a b c => exact s.orRaise_eq_apply _ (.write a)
  | map b c => exact s.orRaise_eq_apply _ fun r : Word × Memory => .mapped b r.1 r.2
  | unmap c => exact s.orRaise_eq_apply _ .store
  | out c => exact s.orRaise_eq_apply _ .emit
  | loadprog b c => exact s.orRaise_eq_apply _ fun r : Memory × Word => .load r.1 r.2 (s.x c)
  | inp c => cases h : s.nextInput <;> simp [exec, execIn, effectOf, h, Effect.apply]
  | _ => rfl

theorem exec_eq_next_iff {i : Instr} {s t : State} :
    exec i s = .next t ↔ t = (effectOf i s).apply s := by
  rw [exec_eq_apply, Host.Outcome.next.injEq, eq_comm]

/-- Where each effect comes from: the instruction that has it, and the result of the operation it
carries. -/
def Effect.Source (i : Instr) (s : State) : Effect → Prop
  | .fault _ => i ≠ .halt
  | .nothing => ∃ a b c, i = .cmov a b c ∧ s.x c = 0#32
  | .write r _ => i.dest = some r
  | .store m =>
    (∃ a b c, i = .sstore a b c ∧ s.mem.set (s.x a) (s.x b) (s.x c) = .ok m) ∨
      ∃ c, i = .unmap c ∧ s.mem.unmap (s.x c) = .ok m
  | .mapped r id m => ∃ c, i = .map r c ∧ s.mem.map s.params (s.x c) = .ok (id, m)
  | .halt => i = .halt
  | .emit b => ∃ c, i = .out c ∧ outputByte (s.x c) = .ok b
  | .input r b => i = .inp r ∧ s.nextInput = some b
  | .load m length target => ∃ b c, i = .loadprog b c ∧ target = s.x c ∧
      s.mem.duplicateToZero s.params (s.x b) = .ok (m, length)

/-- An operation that may raise a fault gives an effect of the right source if each of its results
does. -/
theorem Effect.source_ofResult {α : Type} {i : Instr} {s : State} {result : Except FaultCause α}
    {effect : α → Effect} (hi : i ≠ .halt)
    (h : ∀ a, result = .ok a → (effect a).Source i s) :
    (Effect.ofResult result effect).Source i s := by
  cases result with
  | error cause => exact hi
  | ok a => exact h a rfl

/-- The inversion of `effectOf`, once for all instructions. -/
theorem effectOf_source (i : Instr) (s : State) : (effectOf i s).Source i s := by
  cases i with
  | cmov a b c =>
    by_cases h : s.x c = 0#32
    · simp [effectOf, h, Effect.Source]
    · simp [effectOf, h, Effect.Source, Instr.dest]
  | sload a b c => exact Effect.source_ofResult (by simp) fun _ _ => rfl
  | sstore a b c => exact Effect.source_ofResult (by simp) fun _ h => .inl ⟨a, b, c, rfl, h⟩
  | div a b c => exact Effect.source_ofResult (by simp) fun _ _ => rfl
  | map b c => exact Effect.source_ofResult (by simp) fun _ h => ⟨c, rfl, h⟩
  | unmap c => exact Effect.source_ofResult (by simp) fun _ h => .inr ⟨c, rfl, h⟩
  | out c => exact Effect.source_ofResult (by simp) fun _ h => ⟨c, rfl, h⟩
  | loadprog b c => exact Effect.source_ofResult (by simp) fun _ h => ⟨b, c, rfl, rfl, h⟩
  | inp c =>
    cases h : s.nextInput with
    | none => simp [effectOf, h, Effect.Source, Instr.dest]
    | some b => simp [effectOf, h, Effect.Source]
  | illegal14 => exact nofun
  | illegal15 => exact nofun
  | _ => rfl

/-- An instruction sees of the state its registers, the store, the parameters and the input position,
and nothing else. -/
theorem effectOf_congr {i : Instr} {s s' : State} (hregs : ∀ r ∈ i.reads, s'.x r = s.x r)
    (hmem : s'.mem = s.mem) (hparams : s'.params = s.params) (hinPos : s'.inPos = s.inPos) :
    effectOf i s' = effectOf i s := by
  cases i <;>
    simp_all [Instr.reads, effectOf, State.memRead, State.memWrite, State.nextInput]

/-! ### The frame of an effect -/

/-- The register an effect writes. -/
def Effect.dest : Effect → Option Reg
  | .write r _ => some r
  | .mapped r _ _ => some r
  | .input r _ => some r
  | _ => none

theorem State.setX_setX_self (s : State) (r : Reg) (v w : Word) :
    (s.setX r v).setX r w = s.setX r w := by
  simp [State.setX]

theorem State.setX_comm (s : State) {r q : Reg} (h : r ≠ q) (v w : Word) :
    (s.setX r v).setX q w = (s.setX q w).setX r v := by
  have hval : r.val ≠ q.val := fun e => h (Fin.ext e)
  simp [State.setX, Vector.set_comm _ _ hval]

theorem Effect.x_apply_of_dest_ne {e : Effect} {r : Reg} (s : State) (h : e.dest ≠ some r) :
    (e.apply s).x r = s.x r := by
  cases e with
  | write q v => exact s.x_setX_ne q r v (by simpa [Effect.dest, eq_comm] using h)
  | mapped q id m => exact State.x_setX_ne _ q r id (by simpa [Effect.dest, eq_comm] using h)
  | input q b => exact State.x_setX_ne _ q r _ (by simpa [Effect.dest, eq_comm] using h)
  | _ => rfl

/-- An effect on other registers commutes with a register write. -/
theorem Effect.apply_setX_of_dest_ne {e : Effect} {r : Reg} (s : State) (v : Word)
    (h : e.dest ≠ some r) : e.apply (s.setX r v) = (e.apply s).setX r v := by
  cases e with
  | write q w => exact s.setX_comm (by simpa [Effect.dest, eq_comm] using h) v w
  | mapped q id m =>
    exact State.setX_comm { s with mem := m } (by simpa [Effect.dest, eq_comm] using h) v id
  | input q b => exact s.consumeInput.setX_comm (by simpa [Effect.dest, eq_comm] using h) v _
  | _ => rfl

/-- An effect that writes a register overwrites what was there. -/
theorem Effect.apply_setX_of_dest {e : Effect} {r : Reg} (s : State) (v : Word)
    (h : e.dest = some r) : e.apply (s.setX r v) = e.apply s := by
  cases e with
  | write q w => cases h; exact s.setX_setX_self r v w
  | mapped q id m => cases h; exact State.setX_setX_self { s with mem := m } r v id
  | input q b => cases h; exact s.consumeInput.setX_setX_self r v _
  | _ => exact nomatch h

theorem Effect.halted_apply {e : Effect} (s : State) (h : e ≠ .halt) :
    (e.apply s).halted = s.halted := by
  cases e with
  | halt => exact absurd rfl h
  | _ => rfl

/-- An effect other than HALT's commutes with any setting of the halted flag. -/
theorem Effect.apply_withHalted {e : Effect} (s : State) (flag : Bool) (h : e ≠ .halt) :
    e.apply { s with halted := flag } = { e.apply s with halted := flag } := by
  cases e with
  | halt => exact absurd rfl h
  | _ => rfl

@[simp] theorem Effect.params_apply (e : Effect) (s : State) : (e.apply s).params = s.params := by
  cases e <;> rfl

theorem effectOf_eq_halt_iff {i : Instr} {s : State} : effectOf i s = .halt ↔ i = .halt := by
  constructor
  · intro h
    have hsource := effectOf_source i s
    rwa [h] at hsource
  · rintro rfl
    rfl

/-- An effect writes the destination register of its instruction or none. -/
theorem Effect.dest_of_source {i : Instr} {s : State} {e : Effect} (h : e.Source i s) :
    e.dest = none ∨ e.dest = i.dest := by
  cases e with
  | write r v => exact .inr h.symm
  | mapped r id m => obtain ⟨c, rfl, -⟩ := h; exact .inr rfl
  | input r b => obtain ⟨rfl, -⟩ := h; exact .inr rfl
  | _ => exact .inl rfl

/-- An instruction that neither faults nor is a CMOV without its condition writes its destination. -/
theorem Effect.dest_eq_of_source {i : Instr} {s : State} {e : Effect} (h : e.Source i s)
    (hfault : (e.apply s).fault = none) (hcmov : ∀ a b c, i = .cmov a b c → s.x c ≠ 0#32) :
    e.dest = i.dest := by
  cases e with
  | fault cause => exact nomatch hfault
  | nothing => obtain ⟨a, b, c, hi, hzero⟩ := h; exact absurd hzero (hcmov a b c hi)
  | write r v => exact h.symm
  | store m => obtain ⟨a, b, c, rfl, -⟩ | ⟨c, rfl, -⟩ := h <;> rfl
  | mapped r id m => obtain ⟨c, rfl, -⟩ := h; rfl
  | halt => cases h; rfl
  | emit b => obtain ⟨c, rfl, -⟩ := h; rfl
  | input r b => obtain ⟨rfl, -⟩ := h; rfl
  | load m length target => obtain ⟨b, c, rfl, -⟩ := h; rfl

end Sys2Proof.Machine

namespace Sys2Proof.Machine

/-! SUPPORT. The operations of the segment store keep its invariant (10_state.md R14, R18, R20). -/

theorem Memory.len?_eq_some {m : Memory} {id n : Word} :
    m.len? id = some n ↔ ∃ g, m.segment? id = some g ∧ g.len = n := by
  simp [Memory.len?]

theorem getElem?_set_toNat {slots : List Slot} {id : Word} (slot : Slot) (j : Word)
    (h : id.toNat < slots.length) :
    (slots.set id.toNat slot)[j.toNat]? = if j = id then some slot else slots[j.toNat]? := by
  rw [List.getElem?_set]
  by_cases hj : j = id
  · simp [hj, h]
  · have hne : id.toNat ≠ j.toNat := fun e => hj (BitVec.eq_of_toNat_eq e.symm)
    simp [hj, hne]

/-- One slot replaced and the pool brought in step with it keep the store sound. -/
theorem Memory.Sound.setSlot {m : Memory} (h : m.Sound) {id : Word} {slot : Slot}
    {pool : List Word} (hid : id.toNat < m.tableSize) (hwf : slotWf slot = true)
    (hzero : id = 0#32 → slot ≠ .tombstone) (honce : pool.Nodup)
    (hpool : ∀ j, j ∈ pool ↔ if j = id then slot = .tombstone else j ∈ m.pool) :
    ({ slots := m.slots.set id.toNat slot, pool := pool } : Memory).Sound where
  canonical := wf_set h.canonical hwf
  zeroMapped := by
    obtain ⟨g, hg⟩ := Memory.mapped_iff.mp h.zeroMapped
    rw [Memory.segment?_eq_some] at hg
    rw [Memory.mapped_iff]
    simp only [Memory.segment?_eq_some, getElem?_set_toNat slot _ hid]
    split
    · rename_i hz
      cases slot with
      | segment g' => exact ⟨g', rfl⟩
      | tombstone => exact absurd rfl (hzero hz.symm)
    · exact ⟨g, hg⟩
  poolOnce := honce
  poolTombstones j := by
    rw [hpool, getElem?_set_toNat slot j hid]
    split
    · simp
    · exact h.poolTombstones j

/-- A mapped identifier is not in the pool. -/
theorem Memory.Sound.not_mem_pool {m : Memory} (h : m.Sound) {id : Word} {g : Segment}
    (hg : m.segment? id = some g) : id ∉ m.pool := by
  rw [h.poolTombstones, Memory.segment?_eq_some.mp hg]
  simp

/-- A canonical segment in the place of another keeps the store sound. -/
theorem Memory.Sound.putSegment {m : Memory} (h : m.Sound) {id : Word} {g g' : Segment}
    (hg : m.segment? id = some g) (hwf : slotWf (.segment g') = true) :
    (m.putSlot id (.segment g')).Sound := by
  refine h.setSlot (Memory.lt_tableSize hg) hwf (by simp) h.poolOnce fun j => ?_
  split
  · rename_i hj
    simp [hj, h.not_mem_pool hg]
  · rfl

theorem Memory.Sound.set {m m' : Memory} (h : m.Sound) {id off v : Word}
    (hset : m.set id off v = .ok m') : m'.Sound := by
  obtain ⟨g, hg, hoff, rfl⟩ := Memory.set_eq_ok.mp hset
  exact h.putSegment hg (slotWf_write v (Memory.slotWf_of_segment? h.canonical hg) hoff)

theorem Memory.Sound.duplicateToZero {p : Config.Params} {m m' : Memory} (h : m.Sound)
    {src n : Word} (hdup : m.duplicateToZero p src = .ok (m', n)) : m'.Sound := by
  obtain ⟨g, hg, -, ⟨-, rfl⟩ | ⟨-, -, rfl⟩⟩ := Memory.duplicateToZero_eq_ok.mp hdup
  · exact h
  · obtain ⟨g₀, hg₀⟩ := Memory.mapped_iff.mp h.zeroMapped
    exact h.putSegment hg₀ (Memory.slotWf_of_segment? h.canonical hg)

theorem Memory.Sound.unmap {m m' : Memory} (h : m.Sound) {id : Word}
    (hunmap : m.unmap id = .ok m') : m'.Sound := by
  obtain ⟨hne, hmapped, rfl⟩ := Memory.unmap_eq_ok.mp hunmap
  obtain ⟨g, hg⟩ := Memory.mapped_iff.mp hmapped
  refine h.setSlot (Memory.lt_tableSize hg) rfl (fun hz => absurd hz hne)
    (h.poolOnce.cons (h.not_mem_pool hg)) fun j => ?_
  by_cases hj : j = id <;> simp [hj]

/-- A slot appended to a store without tombstones keeps it sound. -/
theorem Memory.Sound.append {m : Memory} (h : m.Sound) {g : Segment} (hpool : m.pool = [])
    (hwf : slotWf (.segment g) = true) :
    ({ slots := m.slots ++ [.segment g], pool := [] } : Memory).Sound where
  canonical := by
    have hcanonical := h.canonical
    simp only [Memory.wf] at hcanonical ⊢
    simp [hcanonical, hwf]
  zeroMapped := by
    obtain ⟨g₀, hg₀⟩ := Memory.mapped_iff.mp h.zeroMapped
    refine Memory.mapped_iff.mpr ⟨g₀, Memory.segment?_eq_some.mpr ?_⟩
    rw [List.getElem?_append_left (Memory.lt_tableSize hg₀)]
    exact Memory.segment?_eq_some.mp hg₀
  poolOnce := List.nodup_nil
  poolTombstones j := by
    have hold : m.slots[j.toNat]? ≠ some .tombstone := by
      rw [Ne, ← h.poolTombstones, hpool]
      simp
    have hnew : (m.slots ++ [.segment g])[j.toNat]? ≠ some .tombstone := by
      rw [List.getElem?_append]
      split
      · exact hold
      · exact fun hj => absurd (List.mem_of_getElem? hj) (by simp)
    simp [hnew]

theorem Memory.Sound.map {p : Config.Params} {m m' : Memory} (h : m.Sound) {n id : Word}
    (hmap : m.map p n = .ok (id, m')) : m'.Sound := by
  obtain ⟨-, ⟨rest, hpool, rfl⟩ | ⟨hpool, -, -, rfl⟩⟩ := Memory.map_eq_ok.mp hmap
  · have hslot : m.slots[id.toNat]? = some .tombstone :=
      (h.poolTombstones id).mp (by simp [hpool])
    have honce : (id :: rest).Nodup := hpool ▸ h.poolOnce
    obtain ⟨hid, honce⟩ := List.nodup_cons.mp honce
    refine h.setSlot (List.getElem?_eq_some_iff.mp hslot).1 (slotWf_zeroed n) (by simp) honce
      fun j => ?_
    by_cases hj : j = id <;> simp [hj, hid, hpool]
  · exact h.append hpool (slotWf_zeroed n)

/-! ### The length of segment 0, and the table size -/

/-- What the state's invariant says of the store: sound, no larger than MAX_SLOTS, segment 0 of the
program length. -/
structure StoreInv (p : Config.Params) (m : Memory) (programLength : Word) : Prop where
  sound : m.Sound
  tableSize : m.tableSize ≤ p.maxSlots
  lenZero : m.len? 0#32 = some programLength

/-- A store to a cell changes no length. -/
theorem Memory.len?_of_set {m m' : Memory} {id off v : Word} (h : m.set id off v = .ok m')
    (j : Word) : m'.len? j = m.len? j := by
  obtain ⟨g, hg, -, rfl⟩ := Memory.set_eq_ok.mp h
  by_cases hj : j = id
  · subst hj
    simp [Memory.len?, Memory.segment?_putSlot_self _ (Memory.lt_tableSize hg), hg, Segment.write]
  · exact Memory.len?_of_segment? (Memory.segment?_putSlot_ne m _ hj)

/-- A mapped identifier keeps its segment when a slot is mapped. -/
theorem Memory.segment?_of_map {p : Config.Params} {m m' : Memory} (h : m.Sound) {n id : Word}
    (hmap : m.map p n = .ok (id, m')) {j : Word} {g : Segment} (hj : m.segment? j = some g) :
    m'.segment? j = some g := by
  rw [Memory.segment?_eq_some] at hj ⊢
  obtain ⟨-, ⟨rest, hpool, rfl⟩ | ⟨-, -, -, rfl⟩⟩ := Memory.map_eq_ok.mp hmap
  · have hslot : m.slots[id.toNat]? = some .tombstone :=
      (h.poolTombstones id).mp (by simp [hpool])
    have hne : j ≠ id := by
      rintro rfl
      simp [hslot] at hj
    rw [getElem?_set_toNat _ _ (List.getElem?_eq_some_iff.mp hslot).1, if_neg hne, hj]
  · rw [List.getElem?_append_left (List.getElem?_eq_some_iff.mp hj).1, hj]

theorem StoreInv.set {p : Config.Params} {m m' : Memory} {n : Word} (h : StoreInv p m n)
    {id off v : Word} (hset : m.set id off v = .ok m') : StoreInv p m' n where
  sound := h.sound.set hset
  tableSize := by
    obtain ⟨g, -, -, rfl⟩ := Memory.set_eq_ok.mp hset
    simpa using h.tableSize
  lenZero := by rw [Memory.len?_of_set hset, h.lenZero]

theorem StoreInv.map {p : Config.Params} {m m' : Memory} {n : Word} (h : StoreInv p m n)
    {length id : Word} (hmap : m.map p length = .ok (id, m')) : StoreInv p m' n where
  sound := h.sound.map hmap
  tableSize := by
    have hsize := h.tableSize
    obtain ⟨-, ⟨rest, -, rfl⟩ | ⟨-, hroom, -, rfl⟩⟩ := Memory.map_eq_ok.mp hmap
    · simpa [Memory.tableSize] using hsize
    · simpa [Memory.tableSize] using hroom
  lenZero := by
    obtain ⟨g, hg, hlen⟩ := Memory.len?_eq_some.mp h.lenZero
    exact Memory.len?_eq_some.mpr ⟨g, Memory.segment?_of_map h.sound hmap hg, hlen⟩

theorem StoreInv.unmap {p : Config.Params} {m m' : Memory} {n : Word} (h : StoreInv p m n)
    {id : Word} (hunmap : m.unmap id = .ok m') : StoreInv p m' n where
  sound := h.sound.unmap hunmap
  tableSize := by
    obtain ⟨-, -, rfl⟩ := Memory.unmap_eq_ok.mp hunmap
    simpa [Memory.tableSize] using h.tableSize
  lenZero := by
    obtain ⟨hne, -, rfl⟩ := Memory.unmap_eq_ok.mp hunmap
    rw [← h.lenZero]
    exact Memory.len?_of_segment? (Memory.segment?_putSlot_ne m .tombstone hne.symm)

/-- The copy over segment 0 returns the length that segment 0 then has. -/
theorem StoreInv.duplicateToZero {p : Config.Params} {m m' : Memory} {n : Word}
    (h : StoreInv p m n) {src n' : Word} (hdup : m.duplicateToZero p src = .ok (m', n')) :
    StoreInv p m' n' where
  sound := h.sound.duplicateToZero hdup
  tableSize := by
    obtain ⟨g, -, -, ⟨-, rfl⟩ | ⟨-, -, rfl⟩⟩ := Memory.duplicateToZero_eq_ok.mp hdup
    · exact h.tableSize
    · simpa using h.tableSize
  lenZero := by
    obtain ⟨g, hg, rfl, ⟨rfl, rfl⟩ | ⟨-, -, rfl⟩⟩ := Memory.duplicateToZero_eq_ok.mp hdup
    · exact Memory.len?_eq_some.mpr ⟨g, hg, rfl⟩
    · obtain ⟨g₀, hg₀⟩ := Memory.mapped_iff.mp h.sound.zeroMapped
      exact Memory.len?_eq_some.mpr
        ⟨g, Memory.segment?_putSlot_self g (Memory.lt_tableSize hg₀), rfl⟩

/-! ### The invariant of the state -/

theorem State.Inv.storeInv {s : State} (h : s.Inv) : StoreInv s.params s.mem s.programLength :=
  ⟨h.store, h.tableSize, h.programLength⟩

/-- Without a fault the invariant asks nothing of the record. -/
theorem StoreInv.inv_of_no_fault {s : State} (h : StoreInv s.params s.mem s.programLength)
    (hparams : ParamsOk s.params)
    (hinput : ∀ bytes, s.params.input = .finite bytes → s.inPos ≤ bytes.length)
    (hfault : s.fault = none) : s.Inv where
  params := hparams
  store := h.sound
  tableSize := h.tableSize
  programLength := h.lenZero
  input := hinput
  faultNotHalted := fun hne => absurd hfault hne
  faultAddr := by simp [hfault]
  faultWord := by simp [hfault]

/-- A finite INPUT that has a byte at a position reaches past it. -/
theorem lt_length_of_inputAt {bytes : List Byte} {pos : Nat} {b : Byte}
    (h : inputAt (.finite bytes) pos = some b) : pos < bytes.length :=
  (List.getElem?_eq_some_iff.mp h).1

/-- A state of the invariant in which an instruction has been fetched and not yet executed: a and w
are held, and pc is already incremented (40_instruction_cycle.md R80 to R83). -/
structure State.InExecution (s : State) : Prop where
  inv : s.Inv
  fault : s.fault = none
  halted : s.halted = false
  pc : s.pc = s.curAddr + 1#32
  word : s.mem.get 0#32 s.curAddr = .ok s.curWord

theorem State.Inv.inExecution_fetched {s : State} {w : Word} (h : s.Inv)
    (hrunning : s.status = .running) (hfetch : s.fetch = .ok w) : (s.fetched w).InExecution := by
  obtain ⟨hfault, hhalted, -⟩ := s.status_running_iff.mp hrunning
  have hinv : (s.fetched w).Inv :=
    StoreInv.inv_of_no_fault (s := s.fetched w) h.storeInv h.params h.input hfault
  exact ⟨hinv, hfault, hhalted, rfl, hfetch⟩

/-- The fault entry records the instruction in execution (60_exceptions.md R141, R151). -/
theorem State.InExecution.inv_raise {s : State} (h : s.InExecution) (cause : FaultCause) :
    (s.raise cause).Inv where
  params := h.inv.params
  store := h.inv.store
  tableSize := h.inv.tableSize
  programLength := h.inv.programLength
  input := h.inv.input
  faultNotHalted := fun _ => h.halted
  faultAddr := by
    rintro r ⟨⟩
    exact h.pc
  faultWord := by
    rintro r ⟨⟩
    exact h.word

/-- Every effect that an instruction in execution has keeps the invariant. -/
theorem State.InExecution.inv_apply {s : State} (h : s.InExecution) {i : Instr} {e : Effect}
    (hsource : e.Source i s) : (e.apply s).Inv := by
  have hstore := h.inv.storeInv
  have hparams := h.inv.params
  have hinput := h.inv.input
  have hfault := h.fault
  cases e with
  | fault cause => exact h.inv_raise cause
  | nothing => exact h.inv
  | write r v => exact StoreInv.inv_of_no_fault (s := s.setX r v) hstore hparams hinput hfault
  | halt => exact StoreInv.inv_of_no_fault (s := s.halt) hstore hparams hinput hfault
  | emit b => exact StoreInv.inv_of_no_fault (s := s.emit b) hstore hparams hinput hfault
  | store m =>
    have hm : StoreInv s.params m s.programLength := by
      obtain ⟨a, b, c, -, hset⟩ | ⟨c, -, hunmap⟩ := hsource
      · exact hstore.set hset
      · exact hstore.unmap hunmap
    exact StoreInv.inv_of_no_fault (s := { s with mem := m }) hm hparams hinput hfault
  | mapped r id m =>
    obtain ⟨c, -, hmap⟩ := hsource
    exact StoreInv.inv_of_no_fault (s := State.setX { s with mem := m } r id) (hstore.map hmap)
      hparams hinput hfault
  | input r b =>
    obtain ⟨-, hnext⟩ := hsource
    refine StoreInv.inv_of_no_fault (s := s.consumeInput.setX r (zextByte b)) hstore hparams
      (fun bytes hbytes => ?_) hfault
    have hbyte : inputAt (.finite bytes) s.inPos = some b := hbytes ▸ hnext
    exact lt_length_of_inputAt hbyte
  | load m length target =>
    obtain ⟨b, c, -, -, hdup⟩ := hsource
    exact StoreInv.inv_of_no_fault
      (s := State.setPc { s with mem := m, programLength := length } target)
      (hstore.duplicateToZero hdup) hparams hinput hfault

/-- Settles O41: the fetch leaves a state in execution, and each effect keeps the invariant. -/
theorem everyStepKeepsTheInvariant : Obligations.EveryStepKeepsTheInvariant := by
  intro s t hinv hstep
  obtain ⟨hrunning, w, hfetch, hexec⟩ := step_eq_next.mp hstep
  rw [exec_eq_next_iff.mp hexec]
  exact (hinv.inExecution_fetched hrunning hfetch).inv_apply (effectOf_source _ _)

end Sys2Proof.Machine

namespace Sys2Proof.Machine

/-! SUPPORT. Reset and load (10_state.md R23; 70_reset_and_hazards.md R170 to R172). -/

/-- The store of one segment and an empty pool is sound. -/
theorem Memory.sound_singleton {g : Segment} (hwf : slotWf (.segment g) = true) :
    ({ slots := [.segment g], pool := [] } : Memory).Sound where
  canonical := by simp [Memory.wf, hwf]
  zeroMapped := rfl
  poolOnce := List.nodup_nil
  poolTombstones id := by
    have hslot : [Slot.segment g][id.toNat]? ≠ some .tombstone :=
      fun h => absurd (List.mem_of_getElem? h) (by simp)
    simp [hslot]

/-- Settles O42: the store holds the empty segment 0, and nothing has faulted. -/
theorem resetMeetsTheInvariant : Obligations.ResetMeetsTheInvariant := by
  have hstore : StoreInv State.reset.params State.reset.mem State.reset.programLength :=
    ⟨Memory.sound_singleton rfl, by decide, rfl⟩
  exact hstore.inv_of_no_fault (by decide) (fun _ _ => Nat.zero_le _) rfl

/-- The state that the load of a program leaves. -/
def State.loaded (p : Config.Params) (program : List Word) : State :=
  { State.reset with
    programLength := BitVec.ofNat 32 program.length
    mem := { slots := [.segment (.ofWords program)], pool := [] }
    params := p }

/-- The loader's map gives identifier 0, and the program's segment is put there. -/
theorem State.load_eq_some_loaded {p : Config.Params} {program : List Word}
    (hlen : program.length < 4294967296) (hslots : 1 ≤ p.maxSlots)
    (hadmits : Memory.empty.admits p (BitVec.ofNat 32 program.length) = true) :
    State.load p program = some (State.loaded p program) := by
  have hmap : Memory.empty.map p (BitVec.ofNat 32 program.length) =
      .ok (0#32, { slots := [.segment (.zeroed (BitVec.ofNat 32 program.length))], pool := [] }) :=
    Memory.map_eq_ok.mpr ⟨hadmits, .inr ⟨rfl, hslots, rfl, rfl⟩⟩
  simp [State.load, hlen, hmap, State.loaded, Memory.putSlot, State.reset]

/-- A segment made of a list of words reads as the list (10_state.md R23). -/
theorem Segment.read_ofWords {program : List Word} {off w : Word}
    (h : program[off.toNat]? = some w) : (Segment.ofWords program).read off = w := by
  simp [Segment.read, Segment.ofWords, cellsRead_cellsOf, h]

theorem State.get_loaded {p : Config.Params} {program : List Word} {off w : Word}
    (hlen : program.length < 4294967296) (h : program[off.toNat]? = some w) :
    (State.loaded p program).mem.get 0#32 off = .ok w := by
  refine Memory.get_eq_ok.mpr ⟨.ofWords program, rfl, ?_, Segment.read_ofWords h⟩
  have hoff : off.toNat < program.length := (List.getElem?_eq_some_iff.mp h).1
  rw [BitVec.lt_def]
  simp only [Segment.ofWords, BitVec.toNat_ofNat]
  omega

/-- The empty program has ended at once, any other runs (10_state.md R17, R23). -/
theorem State.status_loaded {p : Config.Params} {program : List Word}
    (hlen : program.length < 4294967296) :
    (State.loaded p program).status = if program = [] then .ended else .running := by
  cases program with
  | nil => rfl
  | cons w rest =>
    rw [if_neg (by simp), State.status_running_iff]
    refine ⟨rfl, rfl, ?_⟩
    rw [BitVec.lt_def]
    simp only [State.loaded, State.reset, BitVec.toNat_ofNat, List.length_cons] at hlen ⊢
    omega

/-- Settles O7: the load leaves `State.loaded`, field by field that of the reset table. -/
theorem loadedMachineIsTheResetState : Obligations.LoadedMachineIsTheResetState := by
  intro p program hlen hslots hadmits
  have hlength : (State.loaded p program).programLength.toNat = program.length := by
    simp only [State.loaded, BitVec.toNat_ofNat]
    omega
  exact ⟨State.loaded p program, State.load_eq_some_loaded hlen hslots hadmits,
    fun r => by simp [State.x, State.loaded, State.reset], rfl, rfl, hlength, rfl, rfl, rfl,
    fun off w hw => State.get_loaded hlen hw, rfl, rfl, rfl, rfl, State.status_loaded hlen⟩

/-! ### The run status -/

theorem State.status_halted_iff (s : State) :
    s.status = .halted ↔ s.fault = none ∧ s.halted = true := by
  unfold State.status
  cases s.fault <;> cases s.halted <;> simp
  split <;> simp

theorem State.status_ended_iff (s : State) :
    s.status = .ended ↔ s.fault = none ∧ s.halted = false ∧ s.programLength ≤ s.pc := by
  unfold State.status
  cases s.fault <;> cases s.halted <;> simp

/-- Settles O39: `step` tests the fault record, the halted flag and the end of the program in the
order in which the status is read from them. -/
theorem noStepLeavesATerminalStatus : Obligations.NoStepLeavesATerminalStatus := by
  intro s
  refine ⟨fun h => ?_, fun h => ?_, fun h => ?_, fun t h => (step_eq_next.mp h).1⟩
  · obtain ⟨hfault, hhalted⟩ := s.status_halted_iff.mp h
    simp [step, hfault, hhalted]
  · obtain ⟨hfault, hhalted, hend⟩ := s.status_ended_iff.mp h
    simp [step, hfault, hhalted, hend]
  · obtain ⟨r, hfault⟩ := Option.ne_none_iff_exists'.mp (s.status_faulted_iff.mp h)
    exact ⟨r, hfault, by simp [step, hfault]⟩

/-! ### What moves the halted flag, the program length and the streams -/

/-- Settles O46: HALT's effect is the one that sets the flag, and the one that does not commute with
a setting of it. -/
theorem haltedIsSetByHaltAlone : Obligations.HaltedIsSetByHaltAlone := by
  refine ⟨rfl, fun i s t hexec => ?_, fun i s t flag hexec hi => ?_, fun s t hhalted hstep => ?_⟩
  · rw [exec_eq_next_iff.mp hexec]
    by_cases hi : i = .halt
    · subst hi
      simp [effectOf, Effect.apply]
    · rw [Effect.halted_apply s (effectOf_eq_halt_iff.not.mpr hi)]
      simp [hi]
  · have hsame : effectOf i { s with halted := flag } = effectOf i s :=
      effectOf_congr (fun _ _ => rfl) rfl rfl rfl
    rw [exec_eq_next_iff.mp hexec, exec_eq_apply, hsame,
      Effect.apply_withHalted s flag (effectOf_eq_halt_iff.not.mpr hi)]
  · obtain ⟨-, hrunning, -⟩ := s.status_running_iff.mp (step_eq_next.mp hstep).1
    simp [hhalted] at hrunning

/-- With source 0 the copy returns the length of segment 0 (20_memory.md R38). -/
theorem Memory.length_of_duplicateToZero_zero {p : Config.Params} {m m' : Memory} {n : Word}
    (h : m.duplicateToZero p 0#32 = .ok (m', n)) : m.len? 0#32 = some n := by
  obtain ⟨g, hg, rfl, -⟩ := Memory.duplicateToZero_eq_ok.mp h
  exact Memory.len?_eq_some.mpr ⟨g, hg, rfl⟩

/-- Settles O47: of the nine effects only LOADPROG's sets the program length, and from source 0 it sets
it to what it was. -/
theorem programLengthIsChangedByLoadprogAlone :
    Obligations.ProgramLengthIsChangedByLoadprogAlone := by
  intro i s t hlen hexec hne
  obtain rfl := exec_eq_next_iff.mp hexec
  have hsource := effectOf_source i s
  cases he : effectOf i s with
  | load m length target =>
    rw [he] at hsource hne
    obtain ⟨b, c, hi, -, hdup⟩ := hsource
    refine ⟨b, c, hi, fun hzero => hne ?_⟩
    rw [hzero] at hdup
    have hsame := Memory.length_of_duplicateToZero_zero hdup
    rw [hlen] at hsame
    exact (Option.some.inj hsame).symm
  | _ => rw [he] at hne; exact absurd rfl hne

/-- OUT emits the byte whose value its register holds (44_io.md R130). -/
theorem outputByte_eq_ok {v : Word} {b : Byte} (h : outputByte v = .ok b) :
    b.toNat = v.toNat := by
  unfold outputByte at h
  split at h
  · cases h
  · rename_i hle
    cases h
    rw [BitVec.not_lt, BitVec.le_def] at hle
    simp only [lowByte, BitVec.toNat_setWidth, BitVec.toNat_ofNat] at hle ⊢
    omega

/-- An effect leaves `out` as it was, or is an OUT's. -/
theorem Effect.out_apply {i : Instr} {s : State} {e : Effect} (h : e.Source i s) :
    (e.apply s).out = s.out ∨ ∃ c byte, i = .out c ∧ (e.apply s).out = s.out ++ [byte] ∧
      byte.toNat = (s.x c).toNat := by
  cases e with
  | emit b =>
    obtain ⟨c, hi, hbyte⟩ := h
    exact .inr ⟨c, b, hi, rfl, outputByte_eq_ok hbyte⟩
  | _ => exact .inl rfl

/-- An effect leaves `in_pos` as it was, or is an IN's. -/
theorem Effect.inPos_apply {i : Instr} {s : State} {e : Effect} (h : e.Source i s) :
    (e.apply s).inPos = s.inPos ∨ ∃ c, i = .inp c ∧ (e.apply s).inPos = s.inPos + 1 := by
  cases e with
  | input r b => exact .inr ⟨r, h.1, rfl⟩
  | _ => exact .inl rfl

/-- Settles O50: of the nine effects one appends to `out`, one advances `in_pos`, and none sets the
parameters. -/
theorem streamsAreMovedByOutAndInAlone : Obligations.StreamsAreMovedByOutAndInAlone := by
  refine ⟨rfl, rfl, fun i s t hexec => ?_⟩
  obtain rfl := exec_eq_next_iff.mp hexec
  have hsource := effectOf_source i s
  exact ⟨Effect.out_apply hsource, Effect.inPos_apply hsource, Effect.params_apply _ s⟩

end Sys2Proof.Machine

namespace Sys2Proof.Machine

/-! SUPPORT. The register table of 10_state.md R11: an instruction reads and writes the registers listed
for it, no more and no less. -/

/-! ### No more -/

/-- A register that is not the instruction's destination is not the effect's either. -/
theorem effectOf_dest_ne {i : Instr} {r : Reg} (s : State) (h : i.dest ≠ some r) :
    (effectOf i s).dest ≠ some r := by
  rcases Effect.dest_of_source (effectOf_source i s) with hnone | hdest
  · simp [hnone]
  · rwa [hdest]

/-- The value of a register that is not read does not change the effect. -/
theorem effectOf_setX {i : Instr} {r : Reg} (s : State) (v : Word) (h : r ∉ i.reads) :
    effectOf i (s.setX r v) = effectOf i s :=
  effectOf_congr (fun q hq => s.x_setX_ne r q v fun e => h (e ▸ hq)) rfl rfl rfl

theorem exec_setX_of_neither {i : Instr} {s t : State} {r : Reg} (hexec : exec i s = .next t)
    (v : Word) (hread : r ∉ i.reads) (hdest : i.dest ≠ some r) :
    exec i (s.setX r v) = .next (t.setX r v) := by
  rw [exec_eq_next_iff.mp hexec, exec_eq_apply, effectOf_setX s v hread,
    Effect.apply_setX_of_dest_ne s v (effectOf_dest_ne s hdest)]

theorem exec_setX_of_dest {i : Instr} {s t : State} {r : Reg} (hexec : exec i s = .next t)
    (v : Word) (hread : r ∉ i.reads) (hdest : i.dest = some r) (hfault : t.fault = none)
    (hcmov : ∀ a b c, i = .cmov a b c → s.x c ≠ 0#32) : exec i (s.setX r v) = .next t := by
  obtain rfl := exec_eq_next_iff.mp hexec
  have hwrites : (effectOf i s).dest = some r :=
    hdest ▸ Effect.dest_eq_of_source (effectOf_source i s) hfault hcmov
  rw [exec_eq_apply, effectOf_setX s v hread, Effect.apply_setX_of_dest s v hwrites]

/-! ### No less: states that show a listed register -/

/-- Register r is seen to be read by i: in s and in s with another value in r, which differ in r alone,
i leaves states that differ, and otherwise than by r's old value. -/
def ReadShownBy (i : Instr) (r : Reg) (s : State) (v : Word) : Prop :=
  ∃ t u : State, exec i s = .next t ∧ exec i (s.setX r v) = .next u ∧ u ≠ t ∧ u ≠ t.setX r v

/-- A difference in something that is no register shows the read. -/
theorem readShownBy_of_observation {i : Instr} {r : Reg} {s : State} {v : Word} {e e' : Effect}
    {α : Type} (observe : State → α) (hblind : ∀ t : State, observe (t.setX r v) = observe t)
    (hs : effectOf i s = e) (hu : effectOf i (s.setX r v) = e')
    (hdiff : observe (e'.apply (s.setX r v)) ≠ observe (e.apply s)) : ReadShownBy i r s v := by
  subst hs hu
  refine ⟨_, _, exec_eq_apply i s, exec_eq_apply i _, fun h => hdiff (by rw [h]), fun h => hdiff ?_⟩
  rw [h, hblind]

/-- A fault in the second state alone shows the read. -/
theorem readShownBy_of_fault {i : Instr} {r : Reg} {s : State} {v : Word} {e : Effect}
    {cause : FaultCause} (hs : effectOf i s = e) (hfault : (e.apply s).fault = none)
    (hu : effectOf i (s.setX r v) = .fault cause) : ReadShownBy i r s v :=
  readShownBy_of_observation State.fault (fun _ => rfl) hs hu (by rw [hfault]; exact nofun)

/-- A register that then holds another value, which is not the one put into r either, shows the
read. -/
theorem readShownBy_of_register {i : Instr} {r d : Reg} {s : State} {v x y : Word}
    (hs : ((effectOf i s).apply s).x d = x)
    (hu : ((effectOf i (s.setX r v)).apply (s.setX r v)).x d = y) (hne : y ≠ x)
    (hv : d = r → y ≠ v) : ReadShownBy i r s v := by
  refine ⟨_, _, exec_eq_apply i s, exec_eq_apply i _, fun e => hne (by rw [← hu, e, hs]),
    fun e => ?_⟩
  rw [e, State.x_setX, hs] at hu
  by_cases hd : d = r
  · exact hv hd (by simpa [hd] using hu.symm)
  · exact hne (by simpa [hd] using hu.symm)

/-- The store of one segment with one cell, which holds 1. -/
def oneCell : Memory := { slots := [.segment (.ofWords [1#32])], pool := [] }

/-- A state in which every register holds v, over that store. -/
def uniform (v : Word) : State :=
  { State.reset with regs := Vector.replicate 8 v, mem := oneCell, programLength := 1#32 }

@[simp] theorem x_uniform (v : Word) (r : Reg) : (uniform v).x r = v := by
  simp [uniform, State.x]

@[simp] theorem mem_uniform (v : Word) : (uniform v).mem = oneCell := rfl

@[simp] theorem params_uniform (v : Word) : (uniform v).params = .default := rfl

theorem get_oneCell : oneCell.get 0#32 0#32 = .ok 1#32 := rfl

/-- That store with v in its cell. -/
def oneCellHolding (v : Word) : Memory :=
  oneCell.putSlot 0#32 (.segment ((Segment.ofWords [1#32]).write 0#32 v))

theorem set_oneCell (v : Word) : oneCell.set 0#32 0#32 v = .ok (oneCellHolding v) := rfl

/-- That store with a second segment, of n zeros. -/
def oneCellAnd (n : Word) : Memory :=
  { oneCell with slots := oneCell.slots ++ [.segment (.zeroed n)] }

theorem map_oneCell (n : Word) : oneCell.map .default n = .ok (1#32, oneCellAnd n) := rfl

theorem duplicateToZero_oneCell : oneCell.duplicateToZero .default 0#32 = .ok (oneCell, 1#32) := rfl

theorem duplicateToZero_oneCell_fault :
    oneCell.duplicateToZero .default 1#32 = .error .unmappedSegment := rfl

/-- An instruction that writes a function of two registers reads both, if some pair of values shows it
wherever the registers are. -/
theorem readShownBy_of_binary {i : Instr} {a b c r : Reg} {f : Word → Word → Word}
    (hi : ∀ s, effectOf i s = .write a (f (s.x b) (s.x c))) (hr : r = b ∨ r = c) {k v : Word}
    (hf : ∀ y ∈ [f v v, f v k, f k v], y ≠ f k k ∧ y ≠ v) : ReadShownBy i r (uniform k) v := by
  have hy : f (((uniform k).setX r v).x b) (((uniform k).setX r v).x c) ∈
      [f v v, f v k, f k v] := by
    rcases hr with rfl | rfl
    · by_cases hc : c = r <;> simp [State.x_setX, hc]
    · by_cases hb : b = r <;> simp [State.x_setX, hb]
  obtain ⟨hne, hv⟩ := hf _ hy
  exact readShownBy_of_register (d := a) (by simp [hi, Effect.apply]) (by rw [hi]; simp [Effect.apply])
    hne fun _ => hv

/-- With 1 in r instead of 0, an access to (x[b], x[c]) no longer finds the one cell. -/
theorem get_oneCell_fault {b c r : Reg} (hr : r = b ∨ r = c) :
    ∃ cause, oneCell.get (((uniform 0#32).setX r 1#32).x b) (((uniform 0#32).setX r 1#32).x c) =
      .error cause := by
  by_cases hb : b = r
  · exact ⟨.unmappedSegment, by simp only [State.x_setX, hb, if_true]; rfl⟩
  · have hc : c = r := (hr.resolve_left (Ne.symm hb)).symm
    exact ⟨.offsetOutOfRange, by simp only [State.x_setX, hb, hc, if_true, if_false, x_uniform]; rfl⟩

theorem cmov_read_shown {a b c r : Reg} (hab : a ≠ b) (hr : r = b ∨ r = c) :
    ∃ s v, ReadShownBy (.cmov a b c) r s v := by
  by_cases hb : r = b
  · subst hb
    refine ⟨uniform 1#32, 2#32, readShownBy_of_register (d := a) (x := 1#32) (y := 2#32) ?_ ?_
      (by decide) fun e => absurd e hab⟩
    · simp [effectOf, Effect.apply]
    · by_cases hc : c = r <;> simp [effectOf, Effect.apply, State.x_setX, hc]
  · obtain rfl := hr.resolve_left hb
    refine ⟨(uniform 0#32).setX b 1#32, 5#32, readShownBy_of_register (d := a) (x := 0#32)
      (y := 1#32) ?_ ?_ (by decide) fun _ => by decide⟩
    · simp [effectOf, Effect.apply, State.x_setX, hb, hab]
    · simp [effectOf, Effect.apply, State.x_setX, Ne.symm hb]

theorem div_read_shown {a b c r : Reg} (hr : r = b ∨ r = c) :
    ∃ s v, ReadShownBy (.div a b c) r s v := by
  by_cases hc : r = c
  · subst hc
    refine ⟨uniform 2#32, 0#32, readShownBy_of_fault (e := .write a 1#32) (cause := .divideByZero)
      ?_ rfl ?_⟩
    · simp [effectOf, quotient]
    · simp [effectOf, quotient]
  · obtain rfl := hr.resolve_right hc
    refine ⟨uniform 2#32, 4#32, readShownBy_of_register (d := a) (x := 1#32) (y := 2#32) ?_ ?_
      (by decide) fun _ => by decide⟩
    · simp [effectOf, quotient, Effect.apply]
    · simp [effectOf, quotient, Effect.apply, State.x_setX, Ne.symm hc]

theorem sload_read_shown {a b c r : Reg} (hr : r = b ∨ r = c) :
    ∃ s v, ReadShownBy (.sload a b c) r s v := by
  obtain ⟨cause, hget⟩ := get_oneCell_fault hr
  refine ⟨uniform 0#32, 1#32, readShownBy_of_fault (e := .write a 1#32) (cause := cause) ?_ rfl ?_⟩
  · simp [effectOf, State.memRead, get_oneCell]
  · simp [effectOf, State.memRead, hget]

theorem sstore_read_shown {a b c r : Reg} (hr : (r = a ∨ r = b) ∨ r = c) :
    ∃ s v, ReadShownBy (.sstore a b c) r s v := by
  refine ⟨uniform 0#32, 1#32, ?_⟩
  have hs : effectOf (.sstore a b c) (uniform 0#32) = .store (oneCellHolding 0#32) := by
    simp [effectOf, State.memWrite, set_oneCell]
  by_cases hab : r = a ∨ r = b
  · obtain ⟨cause, hget⟩ := get_oneCell_fault hab
    have hset := fun v => (Memory.set_error_iff_get_error (v := v)).mpr hget
    refine readShownBy_of_fault (cause := cause) hs rfl ?_
    simp [effectOf, State.memWrite, hset]
  · obtain rfl := hr.resolve_left hab
    obtain ⟨ha, hb⟩ := not_or.mp hab
    have hu : effectOf (.sstore a b r) ((uniform 0#32).setX r 1#32) =
        .store (oneCellHolding 1#32) := by
      simp [effectOf, State.memWrite, State.x_setX, Ne.symm ha, Ne.symm hb, set_oneCell]
    have hne : oneCellHolding 1#32 ≠ oneCellHolding 0#32 := by decide
    exact readShownBy_of_observation State.mem (fun _ => rfl) hs hu hne

theorem map_read_shown (b c : Reg) : ∃ s v, ReadShownBy (.map b c) c s v := by
  have hne : oneCellAnd 1#32 ≠ oneCellAnd 0#32 := by decide
  refine ⟨uniform 0#32, 1#32, readShownBy_of_observation State.mem (fun _ => rfl)
    (e := .mapped b 1#32 (oneCellAnd 0#32)) (e' := .mapped b 1#32 (oneCellAnd 1#32)) ?_ ?_ hne⟩
  · simp [effectOf, map_oneCell]
  · simp [effectOf, map_oneCell]

theorem unmap_read_shown (c : Reg) : ∃ s v, ReadShownBy (.unmap c) c s v := by
  refine ⟨uniform 0#32, 1#32, readShownBy_of_observation State.fault (fun _ => rfl)
    (e := .fault .unmapZero) (e' := .fault .unmapUnmapped) ?_ ?_ (by simp [Effect.apply])⟩
  · simp only [effectOf, x_uniform]; rfl
  · simp only [effectOf, State.x_setX_self]; rfl

theorem out_read_shown (c : Reg) : ∃ s v, ReadShownBy (.out c) c s v := by
  refine ⟨uniform 0#32, 1#32, readShownBy_of_observation State.out (fun _ => rfl)
    (e := .emit 0#8) (e' := .emit 1#8) ?_ ?_ (by simp [Effect.apply, uniform])⟩
  · simp [effectOf, outputByte, lowByte]
  · simp [effectOf, outputByte, lowByte]

theorem loadprog_read_shown {b c r : Reg} (hr : r = b ∨ r = c) :
    ∃ s v, ReadShownBy (.loadprog b c) r s v := by
  refine ⟨uniform 0#32, 1#32, ?_⟩
  have hs : effectOf (.loadprog b c) (uniform 0#32) = .load oneCell 1#32 0#32 := by
    simp [effectOf, duplicateToZero_oneCell]
  by_cases hb : r = b
  · subst hb
    refine readShownBy_of_fault (cause := .unmappedSegment) hs rfl ?_
    simp [effectOf, duplicateToZero_oneCell_fault]
  · obtain rfl := hr.resolve_left hb
    refine readShownBy_of_observation (e' := .load oneCell 1#32 1#32) State.pc (fun _ => rfl) hs ?_
      (by simp [Effect.apply])
    simp [effectOf, duplicateToZero_oneCell, State.x_setX, Ne.symm hb]

theorem read_shown (i : Instr) (r : Reg) (hcmov : ∀ a c, i ≠ .cmov a a c) (hr : r ∈ i.reads) :
    ∃ s v, ReadShownBy i r s v := by
  cases i with
  | cmov a b c =>
    exact cmov_read_shown (fun e => hcmov a c (by rw [e])) (by simpa [Instr.reads] using hr)
  | sload a b c => exact sload_read_shown (by simpa [Instr.reads] using hr)
  | sstore a b c => exact sstore_read_shown (by simpa [Instr.reads, or_assoc] using hr)
  | add a b c =>
    exact ⟨_, 5#32, readShownBy_of_binary (k := 1#32) (f := fun x y => x + y) (fun _ => rfl)
      (by simpa [Instr.reads] using hr) (by simp)⟩
  | mul a b c =>
    exact ⟨_, 3#32, readShownBy_of_binary (k := 2#32) (f := fun x y => x * y) (fun _ => rfl)
      (by simpa [Instr.reads] using hr) (by simp)⟩
  | div a b c => exact div_read_shown (by simpa [Instr.reads] using hr)
  | nand a b c =>
    exact ⟨_, 1#32, readShownBy_of_binary (k := 0xFFFFFFFF#32) (f := fun x y => ~~~(x &&& y))
      (fun _ => rfl) (by simpa [Instr.reads] using hr) (by simp)⟩
  | map b c => cases List.mem_singleton.mp hr; exact map_read_shown b r
  | unmap c => cases List.mem_singleton.mp hr; exact unmap_read_shown r
  | out c => cases List.mem_singleton.mp hr; exact out_read_shown r
  | loadprog b c => exact loadprog_read_shown (by simpa [Instr.reads] using hr)
  | _ => exact absurd hr List.not_mem_nil

/-! ### No less: states that show the destination -/

/-- The destination is seen to be written by i in s. -/
def WriteShownBy (i : Instr) (r : Reg) (s : State) : Prop :=
  ∃ t : State, exec i s = .next t ∧ t.x r ≠ s.x r

theorem writeShownBy_of_write {i : Instr} {r : Reg} {s : State} {v : Word}
    (hs : effectOf i s = .write r v) (hv : v ≠ s.x r) : WriteShownBy i r s :=
  ⟨_, exec_eq_apply i s, by simpa [hs, Effect.apply] using hv⟩

theorem write_shown (i : Instr) (r : Reg) (hcmov : ∀ a c, i ≠ .cmov a a c) (hr : i.dest = some r) :
    ∃ s, WriteShownBy i r s := by
  cases i with
  | cmov a b c =>
    cases hr
    have hba : b ≠ r := fun e => hcmov r c (by rw [e])
    refine ⟨(uniform 1#32).setX r 2#32, writeShownBy_of_write (v := 1#32) ?_ (by simp)⟩
    by_cases hc : c = r <;> simp [effectOf, State.x_setX, hba, hc]
  | sload a b c =>
    cases hr
    refine ⟨uniform 0#32, writeShownBy_of_write (v := 1#32) ?_ (by simp)⟩
    simp only [effectOf, State.memRead, x_uniform]; rfl
  | add a b c =>
    cases hr
    exact ⟨uniform 1#32, writeShownBy_of_write rfl (by simp)⟩
  | mul a b c =>
    cases hr
    exact ⟨uniform 2#32, writeShownBy_of_write rfl (by simp)⟩
  | div a b c =>
    cases hr
    refine ⟨uniform 2#32, writeShownBy_of_write (v := 1#32) ?_ (by simp)⟩
    simp [effectOf, quotient]
  | nand a b c =>
    cases hr
    exact ⟨uniform 0#32, writeShownBy_of_write rfl (by simp)⟩
  | map b c =>
    cases hr
    exact ⟨uniform 0#32, _, exec_eq_apply _ _, by simp [effectOf, map_oneCell, Effect.apply]⟩
  | inp c =>
    cases hr
    exact ⟨uniform 0#32, writeShownBy_of_write (v := 0xFFFFFFFF#32) rfl (by simp)⟩
  | loadv a literal =>
    cases hr
    refine ⟨uniform (zextLiteral literal + 1#32), writeShownBy_of_write rfl ?_⟩
    simp
  | _ => exact nomatch hr

/-- Settles O49: what an instruction does is one effect, which depends on the registers read and writes
the destination or nothing; and a state shows each listed register. -/
theorem registersReadAndWrittenAreThoseOfTheTable :
    Obligations.RegistersReadAndWrittenAreThoseOfTheTable := by
  refine ⟨fun i s t r hexec => ⟨fun hdest => ?_, fun v => exec_setX_of_neither hexec v,
    fun v hread hdest _ => exec_setX_of_dest hexec v hread hdest, fun a b c hi hzero => ?_⟩,
    fun i r hcmov hr => ?_, fun i r hcmov hr => ?_⟩
  · rw [exec_eq_next_iff.mp hexec]
    exact Effect.x_apply_of_dest_ne s (effectOf_dest_ne s hdest)
  · subst hi
    rw [exec_eq_next_iff.mp hexec]
    simp [effectOf, hzero, Effect.apply]
  · obtain ⟨s, v, t, u, h⟩ := read_shown i r hcmov hr
    exact ⟨s, v, t, u, h⟩
  · obtain ⟨s, t, h⟩ := write_shown i r hcmov hr
    exact ⟨s, t, h⟩

end Sys2Proof.Machine

namespace Sys2Proof.Machine

/-! SUPPORT. The rules of the segment store and of its instructions that the statements of
20_memory.md need: what an operation answers under its precondition, and the segments after it. -/

/-! ### Lookups -/

theorem Memory.mapped_eq_isSome_len? (m : Memory) (id : Word) :
    m.mapped id = (m.len? id).isSome := by
  simp [Memory.mapped, Memory.len?]

theorem Memory.mapped_of_len? {m m' : Memory} {id : Word} (h : m'.len? id = m.len? id) :
    m'.mapped id = m.mapped id := by
  simp [Memory.mapped_eq_isSome_len?, h]

theorem Memory.mapped_eq_false_iff {m : Memory} {id : Word} :
    m.mapped id = false ↔ m.segment? id = none := by
  simp [Memory.mapped]

theorem Memory.get_of_unmapped {m : Memory} {id : Word} (h : m.segment? id = none) (off : Word) :
    m.get id off = .error .unmappedSegment := by
  simp [Memory.get, h]

theorem Memory.segment?_putSlot_tombstone (m : Memory) (id : Word) :
    (m.putSlot id .tombstone).segment? id = none := by
  rw [Memory.segment?_eq_none]
  by_cases h : id.toNat < m.slots.length
  · simp [Memory.putSlot, h]
  · simp [Memory.putSlot, Nat.not_lt.mp h]

/-- An appended slot is the identifier table_size, and no other sees it. -/
theorem Memory.segment?_append (m : Memory) (g : Segment) (pool : List Word) (j : Word) :
    ({ slots := m.slots ++ [.segment g], pool := pool } : Memory).segment? j =
      if j.toNat = m.tableSize then some g else m.segment? j := by
  unfold Memory.segment? Memory.tableSize
  rcases Nat.lt_trichotomy j.toNat m.slots.length with hlt | heq | hgt
  · simp [List.getElem?_append_left hlt, hlt.ne]
  · simp [heq]
  · have hnew : (m.slots ++ [.segment g])[j.toNat]? = none :=
      List.getElem?_eq_none (by simpa using hgt)
    simp [hnew, List.getElem?_eq_none hgt.le, hgt.ne']

/-! ### The operations under their preconditions -/

theorem Memory.set_of_lt {m : Memory} {id off n : Word} (v : Word) (hlen : m.len? id = some n)
    (hoff : off < n) : ∃ m', m.set id off v = .ok m' := by
  obtain ⟨g, hg, rfl⟩ := Memory.len?_eq_some.mp hlen
  exact ⟨_, Memory.set_eq_ok.mpr ⟨g, hg, hoff, rfl⟩⟩

theorem Memory.admits_of_always {p : Config.Params} (h : p.alloc = .always) (m : Memory)
    (n : Word) : m.admits p n = true := by
  simp [Memory.admits, h]

/-- The two refusals of `map` (20_memory.md R42). -/
theorem Memory.map_refused {p : Config.Params} {m : Memory} {n : Word}
    (h : m.admits p n = false ∨ (m.pool = [] ∧ p.maxSlots ≤ m.tableSize)) :
    m.map p n = .error .resourceExhausted := by
  rcases h with hrefused | ⟨hpool, hfull⟩
  · simp [Memory.map, hrefused]
  · simp [Memory.map, hpool, hfull]

/-- With an identifier in the pool `map` reuses the top one (20_memory.md R34). -/
theorem Memory.map_eq_ok_of_pool {p : Config.Params} {m m' : Memory} {n id id' : Word}
    {rest : List Word} (hpool : m.pool = id :: rest) :
    m.map p n = .ok (id', m') ↔ m.admits p n = true ∧ id' = id ∧
      m' = { m.putSlot id (.segment (.zeroed n)) with pool := rest } := by
  rw [Memory.map_eq_ok, hpool]
  constructor
  · rintro ⟨hadmits, ⟨_, hcons, rfl⟩ | ⟨hnil, -⟩⟩
    · cases hcons
      exact ⟨hadmits, rfl, rfl⟩
    · cases hnil
  · rintro ⟨hadmits, rfl, rfl⟩
    exact ⟨hadmits, .inl ⟨rest, rfl, rfl⟩⟩

/-- With an empty pool and room in the table `map` takes the table size (20_memory.md R34). -/
theorem Memory.map_of_empty_pool {p : Config.Params} {m : Memory} {n : Word} (hpool : m.pool = [])
    (hroom : m.tableSize < p.maxSlots) (hadmits : m.admits p n = true) :
    m.map p n = .ok (BitVec.ofNat 32 m.tableSize,
      { slots := m.slots ++ [.segment (.zeroed n)], pool := [] }) :=
  Memory.map_eq_ok.mpr ⟨hadmits, .inr ⟨hpool, hroom, rfl, rfl⟩⟩

theorem Memory.unmap_of_mapped {m : Memory} {id : Word} (hne : id ≠ 0#32)
    (hmapped : m.mapped id = true) :
    m.unmap id = .ok { m.putSlot id .tombstone with pool := id :: m.pool } :=
  Memory.unmap_eq_ok.mpr ⟨hne, hmapped, rfl⟩

/-! ### The segments after an operation -/

theorem Memory.segment?_of_set_ne {m m' : Memory} {id off v j : Word}
    (h : m.set id off v = .ok m') (hj : j ≠ id) : m'.segment? j = m.segment? j := by
  obtain ⟨g, -, -, rfl⟩ := Memory.set_eq_ok.mp h
  exact Memory.segment?_putSlot_ne m _ hj

theorem Memory.segment?_of_unmap {m m' : Memory} {id : Word} (h : m.unmap id = .ok m') (j : Word) :
    m'.segment? j = if j = id then none else m.segment? j := by
  obtain ⟨-, -, rfl⟩ := Memory.unmap_eq_ok.mp h
  change (m.putSlot id .tombstone).segment? j = _
  split
  · rename_i hj
    rw [hj, Memory.segment?_putSlot_tombstone]
  · rename_i hj
    exact Memory.segment?_putSlot_ne m _ hj

/-- A slot in the pool is free, and is in the table (10_state.md R20). -/
theorem Memory.Sound.pool_top {m : Memory} (h : m.Sound) {id : Word} {rest : List Word}
    (hpool : m.pool = id :: rest) : m.segment? id = none ∧ id.toNat < m.tableSize := by
  have hslot : m.slots[id.toNat]? = some .tombstone := (h.poolTombstones id).mp (by simp [hpool])
  exact ⟨Memory.segment?_eq_none.mpr (.inr hslot), (List.getElem?_eq_some_iff.mp hslot).1⟩

/-- `map` creates the zeroed segment of the identifier it returns and changes no other. -/
theorem Memory.segment?_of_map_cases {p : Config.Params} {m m' : Memory} (h : m.Sound) {n id : Word}
    (hmap : m.map p n = .ok (id, m')) (j : Word) :
    m'.segment? j = m.segment? j ∨
      (j = id ∧ m.segment? j = none ∧ m'.segment? j = some (.zeroed n)) := by
  obtain ⟨-, ⟨rest, hpool, rfl⟩ | ⟨-, -, rfl, rfl⟩⟩ := Memory.map_eq_ok.mp hmap
  · change (m.putSlot id _).segment? j = _ ∨ _ ∧ _ ∧ (m.putSlot id _).segment? j = _
    obtain ⟨hfree, hid⟩ := h.pool_top hpool
    by_cases hj : j = id
    · subst hj
      exact .inr ⟨rfl, hfree, Memory.segment?_putSlot_self _ hid⟩
    · exact .inl (Memory.segment?_putSlot_ne m _ hj)
  · rw [Memory.segment?_append]
    by_cases hj : j.toNat = m.tableSize
    · refine .inr ⟨by simp [← hj], Memory.segment?_eq_none.mpr (.inl ?_), if_pos hj⟩
      exact List.getElem?_eq_none hj.ge
    · exact .inl (if_neg hj)

/-- `duplicate_to_zero` from another source replaces segment 0 by the source's, and from 0 it changes
nothing. -/
theorem Memory.segment?_of_duplicateToZero_cases {p : Config.Params} {m m' : Memory} (h : m.Sound)
    {src n : Word} (hdup : m.duplicateToZero p src = .ok (m', n)) (j : Word) :
    m'.segment? j = m.segment? j ∨
      (src ≠ 0#32 ∧ j = 0#32 ∧ ∃ g, m.segment? src = some g ∧ m'.segment? j = some g) := by
  obtain ⟨g, hg, -, ⟨-, rfl⟩ | ⟨hsrc, -, rfl⟩⟩ := Memory.duplicateToZero_eq_ok.mp hdup
  · exact .inl rfl
  · by_cases hj : j = 0#32
    · subst hj
      obtain ⟨g₀, hg₀⟩ := Memory.mapped_iff.mp h.zeroMapped
      exact .inr ⟨hsrc, rfl, g, hg, Memory.segment?_putSlot_self g (Memory.lt_tableSize hg₀)⟩
    · exact .inl (Memory.segment?_putSlot_ne m _ hj)

/-! ### The instructions -/

/-- The fault entry meets its specification (60_exceptions.md R150). -/
theorem State.raised_raise (s : State) (cause : FaultCause) : Raised cause s (s.raise cause) where
  fault := rfl
  status := s.status_raise cause
  regs _ := rfl
  pc := rfl
  store := ⟨fun _ _ => rfl, fun _ => rfl, rfl, rfl⟩
  halted := rfl
  programLength := rfl
  curAddr := rfl
  curWord := rfl
  streams := ⟨rfl, rfl, rfl⟩

theorem State.onlyWrites_setX (s : State) (a : Reg) (v : Word) : OnlyWrites a s (s.setX a v) where
  regs r hr := s.x_setX_ne a r v hr
  pc := rfl
  store := ⟨fun _ _ => rfl, fun _ => rfl, rfl, rfl⟩
  control := ⟨rfl, rfl, rfl, rfl, rfl⟩
  streams := ⟨rfl, rfl, rfl⟩

/-- An operation that leaves no fault record has answered a result. -/
theorem State.ok_of_orRaise_of_no_fault {α : Type} {s t : State} {result : Except FaultCause α}
    {effect : α → State} (h : s.orRaise result effect = .next t) (hfault : t.fault = none) :
    ∃ a, result = .ok a ∧ t = effect a := by
  obtain ⟨cause, -, rfl⟩ | hok := State.orRaise_eq_next.mp h
  · cases hfault
  · exact hok

theorem exec_sload_of_ok {a b c : Reg} {s : State} {v : Word}
    (h : s.mem.get (s.x b) (s.x c) = .ok v) : exec (.sload a b c) s = .next (s.setX a v) := by
  simp [exec, execSload, State.memRead, h]

theorem exec_sstore_of_ok {a b c : Reg} {s : State} {m : Memory}
    (h : s.mem.set (s.x a) (s.x b) (s.x c) = .ok m) :
    exec (.sstore a b c) s = .next { s with mem := m } := by
  simp [exec, execSstore, State.memWrite, h]

theorem exec_map_of_ok {b c : Reg} {s : State} {id : Word} {m : Memory}
    (h : s.mem.map s.params (s.x c) = .ok (id, m)) :
    exec (.map b c) s = .next (State.setX { s with mem := m } b id) := by
  simp [exec, execMap, h]

theorem exec_unmap_of_ok {c : Reg} {s : State} {m : Memory} (h : s.mem.unmap (s.x c) = .ok m) :
    exec (.unmap c) s = .next { s with mem := m } := by
  simp [exec, execUnmap, h]

/-! ### What an instruction can do to a segment -/

/-- The ways in which the segment of an identifier can change in one instruction, each with the
instruction that does it. -/
inductive SegmentChange (i : Instr) (s t : State) (id : Word) : Prop where
  | same (h : t.mem.segment? id = s.mem.segment? id)
  | written {a b c : Reg} (hi : i = .sstore a b c) (hid : id = s.x a)
      (hset : s.mem.set (s.x a) (s.x b) (s.x c) = .ok t.mem)
  | mapped {b c : Reg} (hi : i = .map b c) (hid : id = t.x b) (before : s.mem.segment? id = none)
      (after : t.mem.segment? id = some (.zeroed (s.x c)))
  | unmapped {c : Reg} (hi : i = .unmap c) (hid : id = s.x c) (after : t.mem.segment? id = none)
  | replaced {b c : Reg} {g : Segment} (hi : i = .loadprog b c) (hsrc : s.x b ≠ 0#32)
      (hid : id = 0#32) (source : s.mem.segment? (s.x b) = some g)
      (after : t.mem.segment? id = some g)

theorem Effect.segmentChange_apply {i : Instr} {s : State} {e : Effect} (hsound : s.mem.Sound)
    (hsource : e.Source i s) (id : Word) : SegmentChange i s (e.apply s) id := by
  cases e with
  | store m =>
    obtain ⟨a, b, c, hi, hset⟩ | ⟨c, hi, hunmap⟩ := hsource
    · by_cases hid : id = s.x a
      · exact .written hi hid hset
      · exact .same (Memory.segment?_of_set_ne hset hid)
    · have hafter := Memory.segment?_of_unmap hunmap id
      by_cases hid : id = s.x c
      · exact .unmapped hi hid (hafter.trans (if_pos hid))
      · exact .same (hafter.trans (if_neg hid))
  | mapped r new m =>
    obtain ⟨c, hi, hmap⟩ := hsource
    obtain hsame | ⟨hid, hbefore, hafter⟩ := Memory.segment?_of_map_cases hsound hmap id
    · exact .same hsame
    · exact .mapped hi (hid.trans (State.x_setX_self _ r new).symm) hbefore hafter
  | load m length target =>
    obtain ⟨b, c, hi, -, hdup⟩ := hsource
    obtain hsame | ⟨hsrc, hid, g, hsource, hafter⟩ :=
      Memory.segment?_of_duplicateToZero_cases hsound hdup id
    · exact .same hsame
    · exact .replaced hi hsrc hid hsource hafter
  | _ => exact .same rfl

/-- Everything an instruction can do to the segment of an identifier. -/
theorem segmentChange_of_exec {i : Instr} {s t : State} (hsound : s.mem.Sound)
    (hexec : exec i s = .next t) (id : Word) : SegmentChange i s t id := by
  rw [exec_eq_next_iff.mp hexec]
  exact Effect.segmentChange_apply hsound (effectOf_source i s) id

/-- The table keeps its size, or grows by one slot, by MAP (10_state.md R18). -/
theorem Effect.tableSize_apply {i : Instr} {s : State} {e : Effect} (hsource : e.Source i s) :
    (e.apply s).mem.tableSize = s.mem.tableSize ∨
      ((e.apply s).mem.tableSize = s.mem.tableSize + 1 ∧ ∃ b c, i = .map b c) := by
  cases e with
  | store m =>
    refine .inl ?_
    obtain ⟨a, b, c, -, hset⟩ | ⟨c, -, hunmap⟩ := hsource
    · obtain ⟨g, -, -, rfl⟩ := Memory.set_eq_ok.mp hset
      exact Memory.tableSize_putSlot ..
    · obtain ⟨-, -, rfl⟩ := Memory.unmap_eq_ok.mp hunmap
      exact Memory.tableSize_putSlot ..
  | mapped r id m =>
    obtain ⟨c, hi, hmap⟩ := hsource
    obtain ⟨-, ⟨rest, -, rfl⟩ | ⟨-, -, -, rfl⟩⟩ := Memory.map_eq_ok.mp hmap
    · exact .inl (Memory.tableSize_putSlot ..)
    · exact .inr ⟨by simp [Effect.apply, Memory.tableSize], r, c, hi⟩
  | load m length target =>
    refine .inl ?_
    obtain ⟨b, c, -, -, hdup⟩ := hsource
    obtain ⟨g, -, -, ⟨-, rfl⟩ | ⟨-, -, rfl⟩⟩ := Memory.duplicateToZero_eq_ok.mp hdup
    · rfl
    · exact Memory.tableSize_putSlot ..
  | _ => exact .inl rfl

end Sys2Proof.Machine

namespace Sys2Proof.Machine

/-! SUPPORT. The statements of 20_memory.md. -/

/-! ### The program file (20_memory.md R46) -/

theorem wordOfBytes_of_word (w : Word) :
    wordOfBytes (BitVec.ofNat 8 (w.toNat / 2 ^ 24)) (BitVec.ofNat 8 (w.toNat / 2 ^ 16))
      (BitVec.ofNat 8 (w.toNat / 2 ^ 8)) (BitVec.ofNat 8 w.toNat) = w := by
  apply BitVec.eq_of_toNat_eq
  have hlt := w.isLt
  simp only [wordOfBytes, BitVec.toNat_ofNat]
  omega

theorem wordsOfFile_flatMap_fileBytes (program : List Word) :
    wordsOfFile (program.flatMap fileBytes) = some program := by
  induction program with
  | nil => rfl
  | cons w rest ih =>
    simp only [List.flatMap_cons, fileBytes, List.cons_append, List.nil_append] at ih ⊢
    simp only [wordsOfFile, ih, wordOfBytes_of_word]

theorem length_mod_four_of_wordsOfFile {file : List Byte} {ws : List Word}
    (h : wordsOfFile file = some ws) : file.length % 4 = 0 := by
  induction file using wordsOfFile.induct generalizing ws with
  | case1 => rfl
  | case2 b0 b1 b2 b3 rest ws' hrest ih =>
    have hlength := ih hrest
    simp only [List.length_cons]
    omega
  | case3 b0 b1 b2 b3 rest hrest ih => simp [wordsOfFile, hrest] at h
  | case4 file hnil hcons => simp [wordsOfFile] at h

/-- Settles O8: four bytes put a word together again, and each word read takes four bytes. -/
theorem programFileIsBigEndianWords : Obligations.ProgramFileIsBigEndianWords := by
  refine ⟨wordsOfFile_flatMap_fileBytes, fun file hodd => ?_⟩
  exact Option.eq_none_iff_forall_ne_some.mpr fun ws h => hodd (length_mod_four_of_wordsOfFile h)

/-! ### get, and the capacity refusals of MAP (20_memory.md R36, R42) -/

/-- Settles O17: the lookup of the identifier, then the comparison with its length. -/
theorem getChecksIdentifierThenOffset : Obligations.GetChecksIdentifierThenOffset := by
  refine fun m id off => ⟨fun h => Memory.get_of_unmapped (Memory.mapped_eq_false_iff.mp h) off,
    fun g hg => ⟨fun hle => by simp [Memory.get, hg, hle], fun hlt => ?_⟩⟩
  exact Memory.get_eq_ok.mpr ⟨g, hg, hlt, rfl⟩

/-- Settles O24: `map` answers ResourceExhausted for either refusal, and the fault entry is all that
happens. -/
theorem mapRefusedByCapacityFaults : Obligations.MapRefusedByCapacityFaults := by
  intro b c s hrefused
  refine ⟨s.raise .resourceExhausted, ?_, s.raised_raise _⟩
  simp [exec, execMap, Memory.map_refused hrefused]

/-! ### The identifiers that MAP returns (20_memory.md R39) -/

theorem exec_unmap_of_mapped {c : Reg} {s : State} (hne : s.x c ≠ 0#32)
    (hmapped : s.mem.mapped (s.x c) = true) :
    ∃ t, exec (.unmap c) s = .next t ∧ SameRegs s t ∧ t.params = s.params ∧
      t.mem.pool = s.x c :: s.mem.pool ∧
      ∀ j, j ≠ s.x c → t.mem.segment? j = s.mem.segment? j :=
  ⟨_, exec_unmap_of_ok (Memory.unmap_of_mapped hne hmapped), fun _ => rfl, rfl, rfl,
    fun _ hj => Memory.segment?_putSlot_ne s.mem .tombstone hj⟩

theorem exec_map_of_empty_pool (b c : Reg) {s : State} (halloc : s.params.alloc = .always)
    (hpool : s.mem.pool = []) (hroom : s.mem.tableSize < s.params.maxSlots) :
    ∃ t, exec (.map b c) s = .next t ∧ t.x b = BitVec.ofNat 32 s.mem.tableSize ∧
      t.params = s.params ∧ t.mem.pool = [] ∧ t.mem.tableSize = s.mem.tableSize + 1 :=
  ⟨_, exec_map_of_ok (Memory.map_of_empty_pool hpool hroom (Memory.admits_of_always halloc _ _)),
    State.x_setX_self .., rfl, rfl, by simp [Memory.tableSize]⟩

theorem exec_map_of_pool (b c : Reg) {s : State} {id : Word} {rest : List Word}
    (halloc : s.params.alloc = .always) (hpool : s.mem.pool = id :: rest) :
    ∃ t, exec (.map b c) s = .next t ∧ t.x b = id ∧ t.params = s.params ∧ t.mem.pool = rest :=
  ⟨_, exec_map_of_ok ((Memory.map_eq_ok_of_pool hpool).mpr
    ⟨Memory.admits_of_always halloc _ _, rfl, rfl⟩), State.x_setX_self .., rfl, rfl⟩

/-- A load that completes leaves `State.loaded`. -/
theorem State.eq_loaded_of_load {p : Config.Params} {program : List Word} {s : State}
    (h : State.load p program = some s) : s = State.loaded p program := by
  have hload := h
  unfold State.load at hload
  split at hload
  · rename_i hlen
    split at hload
    · cases hload
    · rename_i id m hmap
      obtain ⟨hadmits, ⟨rest, hpool, -⟩ | ⟨-, hroom, -, -⟩⟩ := Memory.map_eq_ok.mp hmap
      · cases hpool
      · exact Option.some.inj (h.symm.trans (State.load_eq_some_loaded hlen hroom hadmits))
  · cases hload

/-- Settles O9: the loaded store has one slot and an empty pool, so the first MAP appends slot 1 and the
second slot 2. -/
theorem firstMapsAfterResetReturnOneThenTwo : Obligations.FirstMapsAfterResetReturnOneThenTwo := by
  rintro p program loaded s b c b' c' halloc hslots hload hmem rfl
  obtain rfl := State.eq_loaded_of_load hload
  have hpool : s.mem.pool = [] := by rw [hmem]; rfl
  have hsize : s.mem.tableSize = 1 := by rw [hmem]; rfl
  obtain ⟨t, hexec, hx, hparams, hpool', hsize'⟩ :=
    exec_map_of_empty_pool b c halloc hpool (by omega)
  rw [hsize] at hx hsize'
  obtain ⟨u, hexec', hx', -⟩ :=
    exec_map_of_empty_pool b' c' (hparams ▸ halloc) hpool' (by rw [hparams]; omega)
  rw [hsize'] at hx'
  exact ⟨t, hexec, hx, u, hexec', hx'⟩

/-- Settles O27: each UNMAP pushes its identifier on the pool, and each MAP takes the top one. -/
theorem unmappedIdentifiersComeBackLastFirst : Obligations.UnmappedIdentifiersComeBackLastFirst := by
  intro c c' b d s _ halloc hne hne' hdiff hmapped hmapped'
  obtain ⟨s1, hexec1, hregs1, hparams1, hpool1, hothers⟩ := exec_unmap_of_mapped hne hmapped
  have hstill : s1.mem.mapped (s.x c') = true := by
    rw [Memory.mapped, hothers _ hdiff.symm]
    exact hmapped'
  rw [← hregs1 c'] at hne' hstill
  obtain ⟨s2, hexec2, -, hparams2, hpool2, -⟩ := exec_unmap_of_mapped hne' hstill
  rw [hregs1 c', hpool1] at hpool2
  have halloc2 : s2.params.alloc = .always := by rw [hparams2, hparams1, halloc]
  obtain ⟨s3, hexec3, hx3, hparams3, hpool3⟩ := exec_map_of_pool b d halloc2 hpool2
  obtain ⟨s4, hexec4, hx4, -⟩ := exec_map_of_pool b d (hparams3 ▸ halloc2) hpool3
  exact ⟨s1, s2, s3, s4, hexec1, hexec2, hexec3, hx3, hexec4, hx4⟩

/-! ### Stores, copies and reuse (20_memory.md R38, R44, R45) -/

/-- Settles O21: the store succeeds, and the load reads the cell written. -/
theorem storeThenLoadIsTheIdentity : Obligations.StoreThenLoadIsTheIdentity := by
  intro a b c d s n hwf hlen hoff
  obtain ⟨m, hset⟩ := Memory.set_of_lt (s.x c) hlen hoff
  have hget : m.get (s.x a) (s.x b) = .ok (s.x c) := by simp [Memory.get_of_set hwf hset]
  exact ⟨{ s with mem := m }, State.setX { s with mem := m } d (s.x c), exec_sstore_of_ok hset,
    exec_sload_of_ok hget, State.x_setX_self .., State.onlyWrites_setX ..⟩

/-- Settles O28: the UNMAP leaves no segment and puts the identifier on top of the pool, where the MAP
takes it with a zeroed segment. -/
theorem noStaleWordAfterReuse : Obligations.NoStaleWordAfterReuse := by
  intro b c d s t u _ hsound hunmap htfault hmap hufault
  obtain ⟨m, hm, rfl⟩ := State.ok_of_orRaise_of_no_fault hunmap htfault
  obtain ⟨⟨id, m'⟩, hm', rfl⟩ := State.ok_of_orRaise_of_no_fault hmap hufault
  have hfree : m.segment? (s.x c) = none := by simp [Memory.segment?_of_unmap hm]
  have hpool : m.pool = s.x c :: s.mem.pool := by
    obtain ⟨-, -, rfl⟩ := Memory.unmap_eq_ok.mp hm
    rfl
  obtain ⟨-, rfl, rfl⟩ := (Memory.map_eq_ok_of_pool hpool).mp hm'
  have hafter : (m.putSlot (s.x c) (.segment (.zeroed (s.x d)))).segment? (s.x c) =
      some (.zeroed (s.x d)) :=
    Memory.segment?_putSlot_self _ ((hsound.unmap hm).pool_top hpool).2
  exact ⟨Memory.get_of_unmapped hfree, State.x_setX_self .., Memory.len?_eq_some.mpr ⟨_, hafter, rfl⟩,
    fun off hoff => Memory.get_eq_ok.mpr ⟨_, hafter, hoff, rfl⟩⟩

/-- LOADPROG changes no segment but 0. -/
theorem segment?_of_exec_loadprog {b c : Reg} {s t : State} (hsound : s.mem.Sound)
    (hexec : exec (.loadprog b c) s = .next t) {id : Word} (hid : id ≠ 0#32) :
    t.mem.segment? id = s.mem.segment? id := by
  cases segmentChange_of_exec hsound hexec id with
  | same h => exact h
  | replaced _ _ hzero => exact absurd hzero hid
  | _ hi => cases hi

/-- SSTORE changes no segment but that of its identifier. -/
theorem segment?_of_exec_sstore {a b c : Reg} {s t : State}
    (hexec : exec (.sstore a b c) s = .next t) {id : Word} (hid : id ≠ s.x a) :
    t.mem.segment? id = s.mem.segment? id := by
  obtain ⟨cause, -, rfl⟩ | ⟨m, hset, rfl⟩ := State.orRaise_eq_next.mp hexec
  · rfl
  · exact Memory.segment?_of_set_ne hset hid

/-- Settles O33: the source and segment 0 have different identifiers, and each instruction changes the
segment of one identifier only. -/
theorem loadedCopyIsIndependentOfItsSource : Obligations.LoadedCopyIsIndependentOfItsSource := by
  intro b c a d e s t u hsound hsrc hload hstore
  refine ⟨fun ha off => ?_, fun ha off => ?_⟩
  · exact Memory.get_of_segment? (segment?_of_exec_sstore hstore (by rw [ha]; exact hsrc.symm)) off
  · have hstored := segment?_of_exec_sstore hstore (id := s.x b) (by rwa [ha])
    exact Memory.get_of_segment? (hstored.trans (segment?_of_exec_loadprog hsound hload hsrc)) off

/-! ### What changes a cell, a length and the table (20_memory.md R31, R34, R35, R37, R38) -/

/-- Settles O51: of the changes of a segment two leave the cell in being with another word. -/
theorem cellsChangeByStoreOrProgramCopyAlone : Obligations.CellsChangeByStoreOrProgramCopyAlone := by
  intro i s t id off v v' hsound hexec hbefore hafter hne
  cases segmentChange_of_exec hsound hexec id with
  | same h =>
    rw [Memory.get_of_segment? h, hbefore] at hafter
    cases hafter
    exact absurd rfl hne
  | @written a b c hi hid hset =>
    rw [Memory.get_of_set hsound.canonical hset] at hafter
    split at hafter
    · rename_i hcell
      cases hafter
      exact .inl ⟨a, b, c, hi, hid, hcell.2, rfl⟩
    · rw [hbefore] at hafter
      cases hafter
      exact absurd rfl hne
  | mapped _ _ hfree _ => rw [Memory.get_of_unmapped hfree] at hbefore; cases hbefore
  | unmapped _ _ hfree => rw [Memory.get_of_unmapped hfree] at hafter; cases hafter
  | @replaced b c g hi hsrc hid hsource hcopy =>
    refine .inr ⟨b, c, hi, hsrc, hid, ?_⟩
    rw [← hafter]
    simp [Memory.get, hsource, hcopy]

theorem loadprog_of_len?_ne {i : Instr} {s t : State} {id n n' : Word} (hsound : s.mem.Sound)
    (hexec : exec i s = .next t) (hbefore : s.mem.len? id = some n)
    (hafter : t.mem.len? id = some n') (hne : n' ≠ n) :
    id = 0#32 ∧ ∃ b c, i = .loadprog b c ∧ s.x b ≠ 0#32 := by
  have hchanged : t.mem.len? id ≠ s.mem.len? id := by simpa [hbefore, hafter] using hne
  cases segmentChange_of_exec hsound hexec id with
  | same h => exact absurd (Memory.len?_of_segment? h) hchanged
  | written _ _ hset => exact absurd (Memory.len?_of_set hset id) hchanged
  | mapped _ _ hfree => simp [Memory.len?, hfree] at hbefore
  | unmapped _ _ hfree => simp [Memory.len?, hfree] at hafter
  | replaced hi hsrc hid => exact ⟨hid, _, _, hi, hsrc⟩

theorem unmap_of_mapped_not_after {i : Instr} {s t : State} {id : Word} (hsound : s.mem.Sound)
    (hexec : exec i s = .next t) (hbefore : s.mem.mapped id = true)
    (hafter : t.mem.mapped id = false) : ∃ c, i = .unmap c ∧ id = s.x c := by
  have hchanged : t.mem.mapped id ≠ s.mem.mapped id := by simp [hbefore, hafter]
  cases segmentChange_of_exec hsound hexec id with
  | same h => exact absurd (Memory.mapped_of_len? (Memory.len?_of_segment? h)) hchanged
  | written _ _ hset => exact absurd (Memory.mapped_of_len? (Memory.len?_of_set hset id)) hchanged
  | mapped _ _ _ hnew => simp [Memory.mapped, hnew] at hafter
  | unmapped hi hid => exact ⟨_, hi, hid⟩
  | replaced _ _ _ _ hcopy => simp [Memory.mapped, hcopy] at hafter

theorem map_of_mapped_not_before {i : Instr} {s t : State} {id : Word} (hsound : s.mem.Sound)
    (hexec : exec i s = .next t) (hbefore : s.mem.mapped id = false)
    (hafter : t.mem.mapped id = true) : ∃ b c, i = .map b c ∧ id = t.x b := by
  have hchanged : t.mem.mapped id ≠ s.mem.mapped id := by simp [hbefore, hafter]
  cases segmentChange_of_exec hsound hexec id with
  | same h => exact absurd (Memory.mapped_of_len? (Memory.len?_of_segment? h)) hchanged
  | written _ _ hset => exact absurd (Memory.mapped_of_len? (Memory.len?_of_set hset id)) hchanged
  | mapped hi hid => exact ⟨_, _, hi, hid⟩
  | unmapped _ _ hfree => simp [Memory.mapped, hfree] at hafter
  | replaced _ _ hid => simp [hid, hsound.zeroMapped] at hbefore

/-- Settles O52: each clause is a walk through the changes of a segment, and the table size changes by
MAP's append alone. -/
theorem segmentsComeAndGoByMapAndUnmapAlone : Obligations.SegmentsComeAndGoByMapAndUnmapAlone := by
  intro i s t id hsound hexec
  refine ⟨fun n n' => loadprog_of_len?_ne hsound hexec, unmap_of_mapped_not_after hsound hexec,
    map_of_mapped_not_before hsound hexec, ?_⟩
  rw [exec_eq_next_iff.mp hexec]
  exact Effect.tableSize_apply (effectOf_source i s)

/-! ### Self-modification (20_memory.md R52) -/

/-- A running machine executes the word at pc (40_instruction_cycle.md R80). -/
theorem step_of_get {s : State} {w : Word} (hrunning : s.status = .running)
    (hget : s.mem.get 0#32 s.pc = .ok w) : step s = exec (decode w) (s.fetched w) := by
  obtain ⟨t, hexec⟩ := exec_next (decode w) (s.fetched w)
  rw [hexec]
  exact step_eq_next.mpr ⟨hrunning, w, hget, hexec⟩

/-- Settles O53: the fetch increments pc, the store puts the word there, and the next step reads the
store again. -/
theorem storeOverTheNextInstructionIsExecuted :
    Obligations.StoreOverTheNextInstructionIsExecuted := by
  intro s w a b c hinv hrunning hget hdecode ha hb hpc
  obtain ⟨hfault, hhalted, -⟩ := s.status_running_iff.mp hrunning
  obtain ⟨m, hset⟩ := Memory.set_of_lt (s.x c) hinv.programLength hpc
  let t : State := { s.fetched w with mem := m }
  have hstep : step s = .next t := by
    rw [step_of_get hrunning hget, hdecode]
    exact exec_sstore_of_ok (by simpa [ha, hb] using hset)
  have htrunning : t.status = .running := t.status_running_iff.mpr ⟨hfault, hhalted, hpc⟩
  have htget : t.mem.get 0#32 t.pc = .ok (s.x c) := by
    simp [t, Memory.get_of_set hinv.store.canonical hset]
  exact ⟨t, hstep, htrunning, htget, step_of_get htrunning htget⟩

end Sys2Proof.Machine

namespace Sys2Proof

/-! SUPPORT. The decoder and the encoder (30_encoding.md): the fields of a word of either format, and
decode as a function of the fields. -/

/-! ### The fields of the two formats (30_encoding.md R61, R62) -/

theorem encodeR3_eq_wordR3 (op a b c : Nat) : encodeR3 op a b c = wordR3 op 0 a b c := by
  simp [encodeR3, wordR3]

/-- A three-bit field holds register r when the bits from lo up are those of r. -/
theorem regField_eq {w : Word} {lo : Nat} {r : Reg} (h : w.toNat / 2 ^ lo % 8 = r) :
    regField w lo = r := by
  have hwidth : lo + 2 + 1 - lo = 3 := by omega
  apply Fin.ext
  simp only [regField, bits, hwidth, Fin.val_ofNat]
  omega

section
variable {op ignored : Nat} (a b c : Reg) (hop : op < 16) (hignored : ignored < 2 ^ 19)
include hop hignored

theorem toNat_wordR3 : (wordR3 op ignored a b c).toNat =
    op * 2 ^ 28 + ignored * 2 ^ 9 + a * 2 ^ 6 + b * 2 ^ 3 + c := by
  simp only [wordR3, BitVec.toNat_ofNat]
  omega

theorem opField_wordR3 : opField (wordR3 op ignored a b c) = op := by
  simp only [opField, bits, toNat_wordR3 a b c hop hignored]
  omega

theorem fieldA_wordR3 : fieldA (wordR3 op ignored a b c) = a :=
  regField_eq (by rw [toNat_wordR3 a b c hop hignored]; omega)

theorem fieldB_wordR3 : fieldB (wordR3 op ignored a b c) = b :=
  regField_eq (by rw [toNat_wordR3 a b c hop hignored]; omega)

theorem fieldC_wordR3 : fieldC (wordR3 op ignored a b c) = c :=
  regField_eq (by rw [toNat_wordR3 a b c hop hignored]; omega)

end

section
variable (a : Reg) {literal : Nat} (hliteral : literal < 2 ^ 25)
include hliteral

theorem toNat_encodeLv : (encodeLv a literal).toNat = 13 * 2 ^ 28 + a * 2 ^ 25 + literal := by
  simp only [encodeLv, BitVec.toNat_ofNat]
  omega

theorem fieldLvA_encodeLv : fieldLvA (encodeLv a literal) = a :=
  regField_eq (by rw [toNat_encodeLv a hliteral]; omega)

theorem fieldLiteral_encodeLv : fieldLiteral (encodeLv a literal) = literal := by
  simp only [fieldLiteral, bits, toNat_encodeLv a hliteral]
  omega

end

/-- Format LV has no ignored bit: its fields make up the word (30_encoding.md R62). -/
theorem encodeLv_fields {w : Word} (h : opField w = 13) :
    encodeLv (fieldLvA w) (fieldLiteral w) = w := by
  apply BitVec.eq_of_toNat_eq
  simp only [opField, bits] at h
  simp only [encodeLv, fieldLvA, regField, fieldLiteral, bits, Fin.val_ofNat, BitVec.toNat_ofNat]
  omega

/-! ### decode, from the fields (30_encoding.md R63, R65) -/

theorem opField_lt (w : Word) : opField w < 16 := Nat.mod_lt _ (by decide)

/-- The rows of the opcode map whose operands are register fields of format R3: every row but that of
opcode 13, at which it is not used (30_encoding.md R65). -/
def Instr.ofR3 (op : Nat) (a b c : Reg) : Instr :=
  match op with
  | 0 => .cmov a b c
  | 1 => .sload a b c
  | 2 => .sstore a b c
  | 3 => .add a b c
  | 4 => .mul a b c
  | 5 => .div a b c
  | 6 => .nand a b c
  | 7 => .halt
  | 8 => .map b c
  | 9 => .unmap c
  | 10 => .out c
  | 11 => .inp c
  | 12 => .loadprog b c
  | 14 => .illegal14
  | _ => .illegal15

theorem decode_of_opField_ne {w : Word} (h : opField w ≠ 13) :
    decode w = .ofR3 (opField w) (fieldA w) (fieldB w) (fieldC w) := by
  unfold decode Instr.ofR3
  split <;> simp_all

theorem decode_of_opField_eq {w : Word} (h : opField w = 13) :
    decode w = .loadv (fieldLvA w) (fieldLiteral w) := by
  simp [decode, h]

theorem decode_wordR3 {op ignored : Nat} (a b c : Reg) (hop : op < 16) (hne : op ≠ 13)
    (hignored : ignored < 2 ^ 19) : decode (wordR3 op ignored a b c) = .ofR3 op a b c := by
  have hfield := opField_wordR3 a b c hop hignored
  rw [decode_of_opField_ne (by rwa [hfield]), hfield, fieldA_wordR3 a b c hop hignored,
    fieldB_wordR3 a b c hop hignored, fieldC_wordR3 a b c hop hignored]

theorem decode_encodeR3 {op : Nat} (a b c : Reg) (hop : op < 16) (hne : op ≠ 13) :
    decode (encodeR3 op a b c) = .ofR3 op a b c := by
  rw [encodeR3_eq_wordR3]
  exact decode_wordR3 a b c hop hne (by decide)

theorem decode_encodeLv (a : Reg) {literal : Nat} (hliteral : literal < 2 ^ 25) :
    decode (encodeLv a literal) = .loadv a literal := by
  rw [decode_of_opField_eq (Laws.opField_encodeLv a literal a.isLt hliteral),
    fieldLvA_encodeLv a hliteral, fieldLiteral_encodeLv a hliteral]

theorem Instr.opcode_ofR3 {op : Nat} (a b c : Reg) (hop : op < 16) (hne : op ≠ 13) :
    (Instr.ofR3 op a b c).opcode = op := by
  obtain hbelow | habove := Nat.lt_or_gt_of_ne hne
  · interval_cases op <;> rfl
  · interval_cases op <;> rfl

/-- The decoder takes the row that the top four bits name (30_encoding.md R60). -/
theorem opcode_decode (w : Word) : (decode w).opcode = opField w := by
  by_cases h : opField w = 13
  · rw [decode_of_opField_eq h, h]
    rfl
  · rw [decode_of_opField_ne h, Instr.opcode_ofR3 _ _ _ (opField_lt w) h]

/-! ### The statements of 30_encoding.md -/

/-- Settles O2: a canonical word is one of format R3 with its ignored bits 0, or one of format LV. -/
theorem decodeOfEncodeIsTheInstruction : Obligations.DecodeOfEncodeIsTheInstruction := by
  intro i hwf
  cases i with
  | cmov a b c => exact decode_encodeR3 a b c (by decide) (by decide)
  | sload a b c => exact decode_encodeR3 a b c (by decide) (by decide)
  | sstore a b c => exact decode_encodeR3 a b c (by decide) (by decide)
  | add a b c => exact decode_encodeR3 a b c (by decide) (by decide)
  | mul a b c => exact decode_encodeR3 a b c (by decide) (by decide)
  | div a b c => exact decode_encodeR3 a b c (by decide) (by decide)
  | nand a b c => exact decode_encodeR3 a b c (by decide) (by decide)
  | halt => exact decode_encodeR3 0 0 0 (by decide) (by decide)
  | map b c => exact decode_encodeR3 0 b c (by decide) (by decide)
  | unmap c => exact decode_encodeR3 0 0 c (by decide) (by decide)
  | out c => exact decode_encodeR3 0 0 c (by decide) (by decide)
  | inp c => exact decode_encodeR3 0 0 c (by decide) (by decide)
  | loadprog b c => exact decode_encodeR3 0 b c (by decide) (by decide)
  | loadv a literal => exact decode_encodeLv a (of_decide_eq_true hwf)
  | illegal14 => exact decode_encodeR3 0 0 0 (by decide) (by decide)
  | illegal15 => exact decode_encodeR3 0 0 0 (by decide) (by decide)

/-- Settles O3: the fields of the word, and the decoder as a function of the fields. -/
theorem threeRegisterFormatDecodes : Obligations.ThreeRegisterFormatDecodes := by
  intro a b c ignored hignored
  have hdecode (op : Nat) (a b c : Reg) (hop : op ≤ 12) :
      decode (wordR3 op ignored a b c) = .ofR3 op a b c :=
    decode_wordR3 a b c (by omega) (by omega) hignored
  refine ⟨fun op hle => ?_, hdecode 0 a b c (by decide), hdecode 1 a b c (by decide),
    hdecode 2 a b c (by decide), hdecode 3 a b c (by decide), hdecode 4 a b c (by decide),
    hdecode 5 a b c (by decide), hdecode 6 a b c (by decide), hdecode 7 0 0 0 (by decide),
    hdecode 8 0 b c (by decide), hdecode 9 0 0 c (by decide), hdecode 10 0 0 c (by decide),
    hdecode 11 0 0 c (by decide), hdecode 12 0 b c (by decide)⟩
  have hop : op < 16 := by omega
  exact ⟨opField_wordR3 a b c hop hignored, fieldA_wordR3 a b c hop hignored,
    fieldB_wordR3 a b c hop hignored, fieldC_wordR3 a b c hop hignored⟩

/-- Settles O4: the rows 7 to 12 of the map drop the fields they do not name. -/
theorem unusedRegisterFieldsAreIgnored : Obligations.UnusedRegisterFieldsAreIgnored := by
  intro a b c ignored hignored
  have hdecode (op : Nat) (hop : op ≤ 12) : decode (wordR3 op ignored a b c) = .ofR3 op a b c :=
    decode_wordR3 a b c (by omega) (by omega) hignored
  exact ⟨hdecode 7 (by decide), hdecode 8 (by decide), hdecode 9 (by decide),
    hdecode 10 (by decide), hdecode 11 (by decide), hdecode 12 (by decide)⟩

/-- On opcode 13 the encoder is a left inverse of the decoder too. -/
theorem encode_decode_of_opField_eq {w : Word} (h : opField w = 13) : encode (decode w) = w := by
  rw [decode_of_opField_eq h]
  exact encodeLv_fields h

/-- Settles O5: words that decode alike have one opcode, and on opcode 13 the encoder gives the word
back. -/
theorem loadValueFormatDecodes : Obligations.LoadValueFormatDecodes := by
  refine ⟨fun a _ hliteral => decode_encodeLv a hliteral, fun w w' hw hdecode => ?_⟩
  have hw' : opField w' = 13 := by rw [← opcode_decode, ← hdecode, opcode_decode, hw]
  calc w = encode (decode w) := (encode_decode_of_opField_eq hw).symm
    _ = encode (decode w') := by rw [hdecode]
    _ = w' := encode_decode_of_opField_eq hw'

/-- The mask keeps the top four bits in their place. -/
theorem toNat_and_opcodeMask (w : Word) :
    (w &&& 0xF0000000#32).toNat = opField w * 2 ^ 28 := by
  have hmask : 0xF0000000#32 = BitVec.allOnes 32 <<< 28 := by decide
  have hlt := w.isLt
  rw [hmask, ← BitVec.shiftLeft_ushiftRight, BitVec.toNat_shiftLeft, BitVec.toNat_ushiftRight,
    Nat.shiftLeft_eq, Nat.shiftRight_eq_div_pow]
  simp only [opField, bits]
  omega

/-- Settles O6: both sides say that the top four bits are op. -/
theorem maskAndMatchSelectTheRow : Obligations.MaskAndMatchSelectTheRow := by
  intro w op hop
  rw [opcode_decode, ← BitVec.toNat_inj, toNat_and_opcodeMask, BitVec.toNat_ofNat]
  omega

end Sys2Proof

namespace Sys2Proof.Machine

/-! ### Illegal opcodes (30_encoding.md R67; 60_exceptions.md R142) -/

theorem fourteen_le_opField {w : Word} (h : 0xE0000000#32 ≤ w) : 14 ≤ opField w := by
  have hle := BitVec.le_def.mp h
  have hlt := w.isLt
  simp only [BitVec.toNat_ofNat] at hle
  simp only [opField, bits]
  omega

/-- Whatever its bits below the opcode, a word from 0xE0000000 up raises IllegalInstruction. -/
theorem exec_decode_illegal {w : Word} (h : 0xE0000000#32 ≤ w) (s : State) :
    exec (decode w) s = .next (s.raise .illegalInstruction) := by
  have hlow := fourteen_le_opField h
  have hhigh := opField_lt w
  rw [decode_of_opField_ne (by omega)]
  obtain h14 | h15 : opField w = 14 ∨ opField w = 15 := by omega
  · rw [h14]
    rfl
  · rw [h15]
    rfl

/-- Settles O37: both opcodes are the fault entry, and the step is that of the fetched state. -/
theorem illegalOpcodesFault : Obligations.IllegalOpcodesFault := by
  refine ⟨fun s => ⟨⟨_, rfl, s.raised_raise _⟩, _, rfl, s.raised_raise _⟩,
    fun s w hrunning hget hillegal => ?_⟩
  have hstep : step s = .next ((s.fetched w).raise .illegalInstruction) := by
    rw [step_of_get hrunning hget, exec_decode_illegal hillegal]
  exact ⟨_, hstep, rfl, rfl, fun _ => rfl, ⟨fun _ _ => rfl, fun _ => rfl, rfl, rfl⟩, rfl, rfl,
    ⟨rfl, rfl, rfl⟩⟩

end Sys2Proof.Machine

namespace Sys2Proof.Machine

/-! SUPPORT. The instruction cycle (40_instruction_cycle.md): what a step executes, and where pc is
after it. -/

/-- Settles O38: the state after the fetch is `State.fetched`. -/
theorem stepRunsTheDecodedInstruction : Obligations.StepRunsTheDecodedInstruction := by
  rintro s w i hrunning hget rfl
  exact step_of_get hrunning hget

/-- The fetch overwrites what is held of the step before (40_instruction_cycle.md R80, R82). -/
theorem State.fetched_withHeld (s : State) (addr word w : Word) :
    State.fetched { s with curAddr := addr, curWord := word } w = s.fetched w := rfl

/-- Settles O56: the run test and the fetch do not read the held values, and the fetch overwrites
them. -/
theorem stepIgnoresTheHeldAddressAndWord : Obligations.StepIgnoresTheHeldAddressAndWord := by
  intro s addr word
  simp only [step, State.fetch, State.fetched_withHeld]

/-- A running machine's pc is below the program length, so its increment does not wrap. -/
theorem State.toNat_pc_add_one {s : State} (hrunning : s.status = .running) :
    (s.pc + 1#32).toNat = s.pc.toNat + 1 := by
  obtain ⟨-, -, hpc⟩ := s.status_running_iff.mp hrunning
  bv_omega

/-- No effect but that of LOADPROG moves pc (40_instruction_cycle.md R83). -/
theorem Effect.pc_apply {i : Instr} {s : State} {e : Effect} (h : e.Source i s)
    (hi : ∀ b c, i ≠ .loadprog b c) : (e.apply s).pc = s.pc := by
  cases e with
  | load m length target =>
    obtain ⟨b, c, hloadprog, -⟩ := h
    exact absurd hloadprog (hi b c)
  | _ => rfl

/-- LOADPROG sets pc to its target, or leaves it where it faults (43_control.md R122). -/
theorem pc_of_exec_loadprog {b c : Reg} {s t : State} (hfault : s.fault = none)
    (hexec : exec (.loadprog b c) s = .next t) :
    t.pc = if t.fault = none then s.x c else s.pc := by
  obtain ⟨cause, -, rfl⟩ | ⟨r, -, rfl⟩ := State.orRaise_eq_next.mp hexec
  · simp
  · simp [hfault]

/-- Settles O48: the fetch increments pc, and of the effects of an instruction only LOADPROG's moves it
again. -/
theorem pcIsIncrementedUnlessLoadprogWritesIt :
    Obligations.PcIsIncrementedUnlessLoadprogWritesIt := by
  intro s t w hrunning hget hstep
  have hexec : exec (decode w) (s.fetched w) = .next t := step_of_get hrunning hget ▸ hstep
  obtain ⟨hfault, -, -⟩ := s.status_running_iff.mp hrunning
  refine ⟨State.toNat_pc_add_one hrunning, fun hi => ?_, fun b c hi => ?_⟩
  · rw [exec_eq_next_iff.mp hexec]
    exact Effect.pc_apply (effectOf_source _ _) hi
  · rw [hi] at hexec
    exact pc_of_exec_loadprog (s := s.fetched w) hfault hexec

end Sys2Proof.Machine

namespace Sys2Proof.Machine

/-! SUPPORT. The ALU instructions (41_alu.md). Each is the write of one register, except a CMOV
whose condition is 0 and a DIV by 0; what is left of each statement is a fact about words. -/

/-! ### The frame, once for every instruction that writes one register -/

theorem exec_of_effectOf_write {i : Instr} {s : State} {a : Reg} {v : Word}
    (h : effectOf i s = .write a v) :
    ∃ t, exec i s = .next t ∧ OnlyWrites a s t ∧ t.x a = v :=
  ⟨s.setX a v, exec_eq_next_iff.mpr (by rw [h]; rfl), s.onlyWrites_setX a v, s.x_setX_self a v⟩

/-- A state that is left as it was differs at most in any one register. -/
theorem State.onlyWrites_refl (s : State) (a : Reg) : OnlyWrites a s s where
  regs _ _ := rfl
  pc := rfl
  store := ⟨fun _ _ => rfl, fun _ => rfl, rfl, rfl⟩
  control := ⟨rfl, rfl, rfl, rfl, rfl⟩
  streams := ⟨rfl, rfl, rfl⟩

/-! ### DIV (41_alu.md R103) -/

theorem quotient_zero (dividend : Word) : quotient dividend 0#32 = .error .divideByZero := rfl

theorem quotient_of_ne_zero (dividend : Word) {divisor : Word} (h : divisor ≠ 0#32) :
    quotient dividend divisor = .ok (dividend / divisor) := if_neg h

/-- Settles O13: the quotient of words is the quotient of naturals, which is the greatest number
whose product with the divisor does not exceed the dividend. -/
theorem divWritesGreatestQuotient : Obligations.DivWritesGreatestQuotient := by
  intro a b c s hc
  have hpos : 0 < (s.x c).toNat := by bv_omega
  obtain ⟨t, hexec, honly, hx⟩ := exec_of_effectOf_write
    (i := .div a b c) (s := s) (by rw [effectOf, quotient_of_ne_zero _ hc, Effect.ofResult_ok])
  refine ⟨t, hexec, honly, ?_⟩
  rw [hx, BitVec.toNat_udiv]
  exact ⟨Nat.div_mul_le_self _ _, fun q => (Nat.le_div_iff_mul_le hpos).mpr⟩

/-- Settles O14: the operation answers DivideByZero, and the state is that of the fault entry. -/
theorem divByZeroFaults : Obligations.DivByZeroFaults := by
  intro a b c s hc
  refine ⟨_, ?_, s.raised_raise .divideByZero⟩
  rw [exec, execDiv, hc, quotient_zero, State.orRaise_error]

/-! ### The instructions that do not fault (41_alu.md R100 to R102, R104, R105) -/

/-- Settles O10: with its condition CMOV writes x[B], and without it has no effect. -/
theorem cmovMovesIfConditionNonZero : Obligations.CmovMovesIfConditionNonZero := by
  intro a b c s
  by_cases hc : s.x c = 0#32
  · refine ⟨s, ?_, s.onlyWrites_refl a, fun h => absurd hc h, fun _ => rfl⟩
    simp [exec, execCmov, hc]
  · obtain ⟨t, hexec, honly, hx⟩ := exec_of_effectOf_write
      (i := .cmov a b c) (s := s) (if_pos hc)
    exact ⟨t, hexec, honly, fun _ => hx, fun h => absurd h hc⟩

/-- Settles O11: the addition of words is that of naturals modulo 2^32. -/
theorem addWritesSumModulo : Obligations.AddWritesSumModulo := by
  intro a b c s
  obtain ⟨t, hexec, honly, hx⟩ := exec_of_effectOf_write (i := .add a b c) (s := s) rfl
  exact ⟨t, hexec, honly, by rw [hx, BitVec.toNat_add]⟩

/-- Settles O12: the multiplication of words is that of naturals modulo 2^32. -/
theorem mulWritesProductModulo : Obligations.MulWritesProductModulo := by
  intro a b c s
  obtain ⟨t, hexec, honly, hx⟩ := exec_of_effectOf_write (i := .mul a b c) (s := s) rfl
  exact ⟨t, hexec, honly, by rw [hx, BitVec.toNat_mul]⟩

/-- Settles O15: the complement of a word flips the bits below its width. -/
theorem nandWritesNotOfAnd : Obligations.NandWritesNotOfAnd := by
  intro a b c s
  obtain ⟨t, hexec, honly, hx⟩ := exec_of_effectOf_write (i := .nand a b c) (s := s) rfl
  refine ⟨t, hexec, honly, fun j hj => ?_⟩
  rw [hx, BitVec.getLsbD_not, BitVec.getLsbD_and, decide_eq_true hj, Bool.true_and]

theorem wellFormed_loadv_iff {a : Reg} {literal : Nat} :
    WellFormed (.loadv a literal) = true ↔ literal < 2 ^ 25 := decide_eq_true_iff

theorem toNat_zextLiteral {literal : Nat} (h : literal < 2 ^ 25) :
    (zextLiteral literal).toNat = literal :=
  Nat.mod_eq_of_lt (h.trans (by decide))

/-- Settles O16: a literal of the 25-bit field is below 2^32, so its zero extension keeps it. -/
theorem loadvWritesTheLiteral : Obligations.LoadvWritesTheLiteral := by
  intro a literal s hwf
  obtain ⟨t, hexec, honly, hx⟩ := exec_of_effectOf_write (i := .loadv a literal) (s := s) rfl
  exact ⟨t, hexec, honly, by rw [hx, toNat_zextLiteral (wellFormed_loadv_iff.mp hwf)]⟩

end Sys2Proof.Machine

namespace Sys2Proof.Machine

/-! SUPPORT. The segment memory instructions (42_segment_memory.md). Each is one operation of the
segment store: what the statements add to the rules of that operation is which cells and segments it
leaves alone, and that a failing operation is the fault entry and nothing else. -/

/-! ### The cells of a segment, from its slot -/

/-- What the accesses through an identifier see is its segment. -/
theorem Memory.len?_get_of_segment? {m m' : Memory} {j : Word}
    (h : m'.segment? j = m.segment? j) :
    m'.len? j = m.len? j ∧ ∀ off, m'.get j off = m.get j off :=
  ⟨Memory.len?_of_segment? h, Memory.get_of_segment? h⟩

/-- A fresh segment has the length asked for and reads 0 everywhere (20_memory.md R34). -/
theorem Memory.len?_get_of_zeroed {m : Memory} {id n : Word}
    (h : m.segment? id = some (.zeroed n)) :
    m.len? id = some n ∧ ∀ off, off < n → m.get id off = .ok 0#32 :=
  ⟨Memory.len?_eq_some.mpr ⟨_, h, rfl⟩, fun _ hoff => Memory.get_eq_ok.mpr ⟨_, h, hoff, rfl⟩⟩

theorem Memory.get_of_lt {m : Memory} {id off n : Word} (hlen : m.len? id = some n)
    (hoff : off < n) : ∃ v, m.get id off = .ok v := by
  obtain ⟨g, hg, rfl⟩ := Memory.len?_eq_some.mp hlen
  exact ⟨g.read off, Memory.get_eq_ok.mpr ⟨g, hg, hoff, rfl⟩⟩

theorem Memory.get_of_le {m : Memory} {id off n : Word} (hlen : m.len? id = some n)
    (hoff : n ≤ off) : m.get id off = .error .offsetOutOfRange := by
  obtain ⟨g, hg, rfl⟩ := Memory.len?_eq_some.mp hlen
  simp [Memory.get, hg, hoff]

/-- A store to a cell keeps the table size and the pool (20_memory.md R37). -/
theorem Memory.tableSize_pool_of_set {m m' : Memory} {id off v : Word}
    (h : m.set id off v = .ok m') : m'.tableSize = m.tableSize ∧ m'.pool = m.pool := by
  obtain ⟨g, -, -, rfl⟩ := Memory.set_eq_ok.mp h
  exact ⟨Memory.tableSize_putSlot .., Memory.pool_putSlot ..⟩

/-! ### The faults (60_exceptions.md R145 to R148) -/

/-- An instruction whose operation fails does the fault entry and nothing else. -/
theorem State.raised_of_orRaise {α : Type} (s : State) {result : Except FaultCause α}
    {cause : FaultCause} (effect : α → State) (h : result = .error cause) :
    ∃ t, s.orRaise result effect = .next t ∧ Raised cause s t :=
  ⟨s.raise cause, by rw [h, State.orRaise_error], s.raised_raise cause⟩

theorem exec_sload_of_error {a b c : Reg} {s : State} {cause : FaultCause}
    (h : s.mem.get (s.x b) (s.x c) = .error cause) :
    ∃ t, exec (.sload a b c) s = .next t ∧ Raised cause s t :=
  s.raised_of_orRaise _ h

/-- SSTORE fails where the load from its cell would (20_memory.md R37). -/
theorem exec_sstore_of_error {a b c : Reg} {s : State} {cause : FaultCause}
    (h : s.mem.get (s.x a) (s.x b) = .error cause) :
    ∃ t, exec (.sstore a b c) s = .next t ∧ Raised cause s t :=
  s.raised_of_orRaise _ (Memory.set_error_iff_get_error.mpr h)

theorem exec_unmap_of_error {c : Reg} {s : State} {cause : FaultCause}
    (h : s.mem.unmap (s.x c) = .error cause) :
    ∃ t, exec (.unmap c) s = .next t ∧ Raised cause s t :=
  s.raised_of_orRaise _ h

theorem Memory.unmap_zero (m : Memory) : m.unmap 0#32 = .error .unmapZero := rfl

theorem Memory.unmap_of_unmapped {m : Memory} {id : Word} (hne : id ≠ 0#32)
    (hunmapped : m.mapped id = false) : m.unmap id = .error .unmapUnmapped := by
  simp [Memory.unmap, hne, hunmapped]

/-- Settles O20: `get` and `set` check the identifier, then the offset, and answer the same causes. -/
theorem loadAndStoreOutsideTheStoreFault : Obligations.LoadAndStoreOutsideTheStoreFault := by
  intro a b c s
  refine ⟨fun hid => ?_, fun n hlen hoff => ?_, fun hid => ?_, fun n hlen hoff => ?_⟩
  · exact exec_sload_of_error (Memory.get_of_unmapped (Memory.mapped_eq_false_iff.mp hid) _)
  · exact exec_sload_of_error (Memory.get_of_le hlen hoff)
  · exact exec_sstore_of_error (Memory.get_of_unmapped (Memory.mapped_eq_false_iff.mp hid) _)
  · exact exec_sstore_of_error (Memory.get_of_le hlen hoff)

/-- Settles O26: `unmap` refuses 0 first, then an identifier without a segment. -/
theorem unmapOfZeroOrUnmappedFaults : Obligations.UnmapOfZeroOrUnmappedFaults := by
  refine fun c s => ⟨fun hzero => ?_, fun hne hunmapped => ?_⟩
  · exact exec_unmap_of_error (hzero ▸ s.mem.unmap_zero)
  · exact exec_unmap_of_error (Memory.unmap_of_unmapped hne hunmapped)

/-! ### SLOAD and SSTORE (42_segment_memory.md R110, R112) -/

/-- Settles O18: `get` answers the word of the cell, and SLOAD writes it to one register. -/
theorem sloadWritesTheCell : Obligations.SloadWritesTheCell := by
  intro a b c s n hlen hoff
  obtain ⟨v, hget⟩ := Memory.get_of_lt hlen hoff
  exact ⟨s.setX a v, v, exec_sload_of_ok hget, hget, s.x_setX_self a v, s.onlyWrites_setX a v⟩

/-- Settles O19: `set` succeeds, and by read after write it changes the one cell. -/
theorem sstoreWritesOneCell : Obligations.SstoreWritesOneCell := by
  intro a b c s n hwf hlen hoff
  obtain ⟨m, hset⟩ := Memory.set_of_lt (s.x c) hlen hoff
  obtain ⟨hsize, hpool⟩ := Memory.tableSize_pool_of_set hset
  have hget := Memory.get_of_set hwf hset
  exact ⟨{ s with mem := m }, exec_sstore_of_ok hset, (hget _ _).trans (if_pos ⟨rfl, rfl⟩),
    fun id off hother => (hget id off).trans (if_neg hother), Memory.len?_of_set hset,
    hsize, hpool, fun _ => rfl, rfl, ⟨rfl, rfl, rfl, rfl, rfl⟩, ⟨rfl, rfl, rfl⟩⟩

/-! ### MAP (42_segment_memory.md R114) -/

/-- What a successful MAP does outside the store: it writes the identifier to x[B], and nothing
else. -/
theorem exec_map_frame {b c : Reg} {s : State} {id : Word} {m : Memory}
    (h : s.mem.map s.params (s.x c) = .ok (id, m)) :
    ∃ t, exec (.map b c) s = .next t ∧ t.x b = id ∧ t.mem = m ∧ SameRegsBut b s t ∧
      t.pc = s.pc ∧ SameControl s t ∧ SameStreams s t :=
  ⟨_, exec_map_of_ok h, State.x_setX_self .., rfl, fun r hr => State.x_setX_ne _ b r id hr, rfl,
    ⟨rfl, rfl, rfl, rfl, rfl⟩, ⟨rfl, rfl, rfl⟩⟩

/-- Settles O22: the slot at the top of the pool is in the table, and there alone the zeroed segment is
put. -/
theorem mapReusesTheLastUnmapped : Obligations.MapReusesTheLastUnmapped := by
  intro b c s id rest hsound hpool hadmits
  obtain ⟨t, hexec, hx, hmem, hregs, hpc, hcontrol, hstreams⟩ :=
    exec_map_frame (b := b) ((Memory.map_eq_ok_of_pool hpool).mpr ⟨hadmits, rfl, rfl⟩)
  have hnew : t.mem.segment? id = some (.zeroed (s.x c)) := by
    rw [hmem]
    exact Memory.segment?_putSlot_self _ (hsound.pool_top hpool).2
  have hothers : ∀ j, j ≠ id → t.mem.segment? j = s.mem.segment? j := by
    rw [hmem]
    exact fun j hj => Memory.segment?_putSlot_ne s.mem _ hj
  obtain ⟨hlen, hzero⟩ := Memory.len?_get_of_zeroed hnew
  refine ⟨t, hexec, hx, hregs, hlen, hzero,
    fun j hj => Memory.len?_get_of_segment? (hothers j hj), ?_, ?_, hpc, hcontrol, hstreams⟩
  · rw [hmem]
  · rw [hmem]
    exact Memory.tableSize_putSlot ..

/-- Settles O23: the table size is below 2^32, so it is an identifier, and the slot appended is the one
it names. -/
theorem mapAppendsWhenThePoolIsEmpty : Obligations.MapAppendsWhenThePoolIsEmpty := by
  intro b c s hslots hpool hroom hadmits
  obtain ⟨t, hexec, hx, hmem, hregs, hpc, hcontrol, hstreams⟩ :=
    exec_map_frame (b := b) (Memory.map_of_empty_pool hpool hroom hadmits)
  have hid : (t.x b).toNat = s.mem.tableSize := by
    rw [hx, BitVec.toNat_ofNat, Nat.mod_eq_of_lt (hroom.trans_le hslots)]
  have hnew : t.mem.segment? (t.x b) = some (.zeroed (s.x c)) := by
    rw [hmem, Memory.segment?_append, if_pos hid]
  have hothers : ∀ j, j ≠ t.x b → t.mem.segment? j = s.mem.segment? j := by
    intro j hj
    rw [hmem, Memory.segment?_append, ← hid, if_neg fun e => hj (BitVec.eq_of_toNat_eq e)]
  obtain ⟨hlen, hzero⟩ := Memory.len?_get_of_zeroed hnew
  refine ⟨t, hexec, hid, hregs, hlen, hzero,
    fun j hj => Memory.len?_get_of_segment? (hothers j hj), ?_, ?_, hpc, hcontrol, hstreams⟩
  · rw [hmem]
  · rw [hmem]
    exact List.length_append

/-! ### UNMAP (42_segment_memory.md R116) -/

/-- Settles O25: the slot of x[C] becomes a tombstone, and no other slot changes. -/
theorem unmapReleasesTheSegment : Obligations.UnmapReleasesTheSegment := by
  intro c s hne hmapped
  have hunmap := Memory.unmap_of_mapped hne hmapped
  have hafter := Memory.segment?_of_unmap hunmap
  have hfree := (hafter (s.x c)).trans (if_pos rfl)
  exact ⟨_, exec_unmap_of_ok hunmap, Memory.mapped_eq_false_iff.mpr hfree,
    Memory.get_of_unmapped hfree,
    fun j hj => Memory.len?_get_of_segment? ((hafter j).trans (if_neg hj)), rfl,
    Memory.tableSize_putSlot .., fun _ => rfl, rfl, ⟨rfl, rfl, rfl, rfl, rfl⟩, ⟨rfl, rfl, rfl⟩⟩

end Sys2Proof.Machine

namespace Sys2Proof.Machine

/-! SUPPORT. The control instructions (43_control.md): what `duplicate_to_zero` answers in each of its
cases, and what LOADPROG and HALT make of it. -/

/-! ### duplicate_to_zero (20_memory.md R38), case by case -/

/-- From 0 it answers the length of segment 0 and changes nothing. -/
theorem Memory.duplicateToZero_zero (p : Config.Params) {m : Memory} {n : Word}
    (hlen : m.len? 0#32 = some n) : m.duplicateToZero p 0#32 = .ok (m, n) := by
  obtain ⟨g, hg, rfl⟩ := Memory.len?_eq_some.mp hlen
  exact Memory.duplicateToZero_eq_ok.mpr ⟨g, hg, rfl, .inl ⟨rfl, rfl⟩⟩

/-- From another source it puts the source's segment in slot 0. -/
theorem Memory.duplicateToZero_of_segment? {p : Config.Params} {m : Memory} {src : Word}
    {g : Segment} (hne : src ≠ 0#32) (hg : m.segment? src = some g)
    (hadmits : m.admits p g.len = true) :
    m.duplicateToZero p src = .ok (m.putSlot 0#32 (.segment g), g.len) :=
  Memory.duplicateToZero_eq_ok.mpr ⟨g, hg, rfl, .inr ⟨hne, hadmits, rfl⟩⟩

theorem Memory.duplicateToZero_of_unmapped (p : Config.Params) {m : Memory} {src : Word}
    (hunmapped : m.mapped src = false) : m.duplicateToZero p src = .error .unmappedSegment := by
  simp [Memory.duplicateToZero, Memory.mapped_eq_false_iff.mp hunmapped]

theorem Memory.duplicateToZero_of_refused {p : Config.Params} {m : Memory} {src n : Word}
    (hne : src ≠ 0#32) (hlen : m.len? src = some n) (hrefused : m.admits p n = false) :
    m.duplicateToZero p src = .error .resourceExhausted := by
  obtain ⟨g, hg, rfl⟩ := Memory.len?_eq_some.mp hlen
  simp [Memory.duplicateToZero, hg, hne, hrefused]

/-! ### LOADPROG (43_control.md R122, R123) -/

theorem exec_loadprog_of_ok {b c : Reg} {s : State} {m : Memory} {n : Word}
    (h : s.mem.duplicateToZero s.params (s.x b) = .ok (m, n)) :
    exec (.loadprog b c) s = .next (State.setPc { s with mem := m, programLength := n } (s.x c)) := by
  simp [exec, execLoadprog, h]

theorem exec_loadprog_of_error {b c : Reg} {s : State} {cause : FaultCause}
    (h : s.mem.duplicateToZero s.params (s.x b) = .error cause) :
    ∃ t, exec (.loadprog b c) s = .next t ∧ Raised cause s t :=
  s.raised_of_orRaise _ h

/-- Settles O30: the operation answers the store and the program length as they are, so pc is all that
changes. -/
theorem loadprogOfZeroIsAJump : Obligations.LoadprogOfZeroIsAJump := by
  intro b c s hzero hlen
  have hdup : s.mem.duplicateToZero s.params (s.x b) = .ok (s.mem, s.programLength) :=
    hzero ▸ Memory.duplicateToZero_zero s.params hlen
  exact ⟨_, exec_loadprog_of_ok hdup, rfl, fun _ => rfl, ⟨fun _ _ => rfl, fun _ => rfl, rfl, rfl⟩,
    ⟨rfl, rfl, rfl, rfl, rfl⟩, ⟨rfl, rfl, rfl⟩⟩

/-- Settles O31: slot 0 is in the table and takes the source's segment, and no other slot changes. -/
theorem loadprogCopiesTheSourceOverSegmentZero :
    Obligations.LoadprogCopiesTheSourceOverSegmentZero := by
  intro b c s n hne hmapped hlen hadmits
  obtain ⟨g, hg, rfl⟩ := Memory.len?_eq_some.mp hlen
  obtain ⟨g₀, hg₀⟩ := Memory.mapped_iff.mp hmapped
  have hzero : (s.mem.putSlot 0#32 (.segment g)).segment? 0#32 = some g :=
    Memory.segment?_putSlot_self g (Memory.lt_tableSize hg₀)
  have hcells : ∀ off, (s.mem.putSlot 0#32 (.segment g)).get 0#32 off = s.mem.get (s.x b) off :=
    fun off => by simp [Memory.get, hzero, hg]
  exact ⟨_, exec_loadprog_of_ok (Memory.duplicateToZero_of_segment? hne hg hadmits), rfl, rfl,
    Memory.len?_eq_some.mpr ⟨g, hzero, rfl⟩, hcells,
    fun _ hj => Memory.len?_get_of_segment? (Memory.segment?_putSlot_ne s.mem _ hj),
    Memory.tableSize_putSlot .., Memory.pool_putSlot .., fun _ => rfl, rfl, rfl, rfl, rfl,
    ⟨rfl, rfl, rfl⟩⟩

/-- Settles O54: the step is the copy in the fetched state, and the status reads the target against the
new program length. -/
theorem afterLoadprogTheNewProgramRuns : Obligations.AfterLoadprogTheNewProgramRuns := by
  intro s w n b c hinv hrunning hget hdecode hne hlen hadmits
  obtain ⟨hfault, hhalted, -⟩ := s.status_running_iff.mp hrunning
  obtain ⟨t, hexec, hpc, hlength, -, hcells, -, -, -, -, hthalted, htfault, -⟩ :=
    loadprogCopiesTheSourceOverSegmentZero b c (s.fetched w) n hne hinv.store.zeroMapped hlen hadmits
  have htfault : t.fault = none := htfault.trans hfault
  have hthalted : t.halted = false := hthalted.trans hhalted
  have hpc : t.pc = s.x c := hpc
  refine ⟨t, ?_, fun hlt => ⟨?_, ?_⟩, fun hle => ?_⟩
  · rw [step_of_get hrunning hget, hdecode, hexec]
  · exact t.status_running_iff.mpr ⟨htfault, hthalted, by rwa [hpc, hlength]⟩
  · rw [hpc]
    exact hcells (s.x c)
  · exact t.status_ended_iff.mpr ⟨htfault, hthalted, by rwa [hpc, hlength]⟩

/-- Settles O32: the operation checks the source first, then the capacity, and either failure is the
fault entry. -/
theorem loadprogFromUnmappedOrRefusedFaults : Obligations.LoadprogFromUnmappedOrRefusedFaults := by
  refine fun b c s hne => ⟨fun hunmapped => ?_, fun n hlen hrefused => ?_⟩
  · exact exec_loadprog_of_error (Memory.duplicateToZero_of_unmapped s.params hunmapped)
  · exact exec_loadprog_of_error (Memory.duplicateToZero_of_refused hne hlen hrefused)

/-! ### HALT (43_control.md R120) -/

theorem State.exitStatus_of_halted {s : State} (h : s.status = .halted) : s.exitStatus = some 0 := by
  simp [State.exitStatus, h]

theorem State.no_step_of_halted {s : State} (h : s.status = .halted) (t : State) :
    step s ≠ .next t := by
  simp [(noStepLeavesATerminalStatus s).1 h]

/-- Settles O29: HALT sets the flag and nothing else, and without a fault record the flag makes the
status Halted. -/
theorem haltSetsHaltedAndNothingElse : Obligations.HaltSetsHaltedAndNothingElse := by
  intro s
  refine ⟨s.halt, rfl, rfl, fun hfault => ?_, fun _ => rfl, rfl,
    ⟨fun _ _ => rfl, fun _ => rfl, rfl, rfl⟩, rfl, rfl, rfl, rfl, ⟨rfl, rfl, rfl⟩⟩
  have hhalted : s.halt.status = .halted := s.halt.status_halted_iff.mpr ⟨hfault, rfl⟩
  exact ⟨hhalted, State.no_step_of_halted hhalted, State.exitStatus_of_halted hhalted⟩

end Sys2Proof.Machine

namespace Sys2Proof.Machine

/-! SUPPORT. The input and output instructions (44_io.md): the byte OUT emits or its refusal, the two
answers to the request of IN, and that no step sees more of INPUT than such an answer. -/

/-! ### A step and INPUT (44_io.md R133) -/

/-- The same state over another INPUT. -/
def State.withInput (s : State) (input : Config.InputStream) : State :=
  { s with params := { s.params with input := input } }

/-- Of the operations an effect is made of, only the request of IN reads INPUT. -/
theorem effectOf_withInput {s : State} {input : Config.InputStream}
    (hnext : inputAt input s.inPos = s.nextInput) (i : Instr) :
    effectOf i (s.withInput input) = effectOf i s := by
  cases i with
  | inp c =>
    have hsame : (s.withInput input).nextInput = s.nextInput := hnext
    simp only [effectOf, hsame]
  | _ => rfl

theorem Effect.apply_withInput (e : Effect) (s : State) (input : Config.InputStream) :
    e.apply (s.withInput input) = (e.apply s).withInput input := by
  cases e <;> rfl

theorem exec_withInput {i : Instr} {s t : State} {input : Config.InputStream}
    (hnext : inputAt input s.inPos = s.nextInput) (hexec : exec i s = .next t) :
    exec i (s.withInput input) = .next (t.withInput input) := by
  rw [exec_eq_next_iff.mp hexec, exec_eq_apply, effectOf_withInput hnext, Effect.apply_withInput]

/-- Settles O55: the run test and the fetch read no parameter, and the effect of the instruction is one
that the same answer to its request gives. -/
theorem stepSeesOnlyTheNextInput : Obligations.StepSeesOnlyTheNextInput := by
  intro s t input hnext hstep
  obtain ⟨hrunning, w, hfetch, hexec⟩ := step_eq_next.mp hstep
  have hexec' : exec (decode w) ((s.fetched w).withInput input) = .next (t.withInput input) :=
    exec_withInput hnext hexec
  exact step_eq_next.mpr ⟨hrunning, w, hfetch, hexec'⟩

/-! ### OUT (44_io.md R130) -/

theorem outputByte_of_le {v : Word} (h : v ≤ 255#32) : outputByte v = .ok (lowByte v) :=
  if_neg (BitVec.not_lt.mpr h)

theorem outputByte_of_gt {v : Word} (h : 255#32 < v) : outputByte v = .error .outputRange :=
  if_pos h

/-- Settles O34: the byte is in range, and `emit` changes nothing but the output. -/
theorem outEmitsTheByte : Obligations.OutEmitsTheByte := by
  intro c s hle
  have hbyte := outputByte_of_le hle
  have hexec : exec (.out c) s = .next (s.emit (lowByte (s.x c))) := by
    rw [exec, execOut, hbyte, State.orRaise_ok]
  exact ⟨_, _, hexec, rfl, outputByte_eq_ok hbyte, fun _ => rfl, rfl,
    ⟨fun _ _ => rfl, fun _ => rfl, rfl, rfl⟩, ⟨rfl, rfl, rfl, rfl, rfl⟩, rfl, rfl⟩

/-- Settles O35: the value is not truncated to its low byte but refused, and the refusal is the fault
entry. -/
theorem outAbove255Faults : Obligations.OutAbove255Faults := by
  intro c s hgt
  exact s.raised_of_orRaise _ (outputByte_of_gt hgt)

/-! ### IN (44_io.md R132, R133) -/

theorem State.nextInput_of_finite {s : State} {bytes : List Byte}
    (h : s.params.input = .finite bytes) : s.nextInput = bytes[s.inPos]? := by
  rw [State.nextInput, h, inputAt]

/-- An infinite INPUT never ends. -/
theorem State.nextInput_of_infinite {s : State} {known : List Byte}
    (h : s.params.input = .infinite known) :
    s.nextInput = some (known[s.inPos]?.getD (Config.inputByte s.inPos)) := by
  rw [State.nextInput, h, inputAt]

theorem exec_inp_of_end (c : Reg) {s : State} (h : s.nextInput = none) :
    exec (.inp c) s = .next (s.setX c 0xFFFFFFFF#32) := by
  simp only [exec, execIn, h]

theorem exec_inp_of_byte (c : Reg) {s : State} {b : Byte} (h : s.nextInput = some b) :
    exec (.inp c) s = .next (s.consumeInput.setX c (zextByte b)) := by
  simp only [exec, execIn, h]

theorem toNat_zextByte (b : Byte) : (zextByte b).toNat = b.toNat :=
  BitVec.toNat_setWidth_of_le (by decide)

/-- Settles O36: at the end of input one register is written, and otherwise the byte consumed; which
of the two it is, the kind of INPUT says. -/
theorem inReadsTheNextByteOrAllOnes : Obligations.InReadsTheNextByteOrAllOnes := by
  intro c s
  cases hnext : s.nextInput with
  | none =>
    have honly := s.onlyWrites_setX c 0xFFFFFFFF#32
    refine ⟨_, exec_inp_of_end c hnext, honly.regs, honly.pc, honly.store, honly.control,
      honly.streams.out, honly.streams.params, fun bytes byte hinput hbyte => ?_,
      fun _ _ _ => ⟨s.x_setX_self c _, rfl⟩, fun known hinput => ?_⟩
    · rw [State.nextInput_of_finite hinput, hbyte] at hnext
      cases hnext
    · rw [State.nextInput_of_infinite hinput] at hnext
      cases hnext
  | some b =>
    have hx : ((s.consumeInput.setX c (zextByte b)).x c).toNat = b.toNat := by
      rw [State.x_setX_self, toNat_zextByte]
    refine ⟨_, exec_inp_of_byte c hnext, fun r hr => State.x_setX_ne _ c r _ hr, rfl,
      ⟨fun _ _ => rfl, fun _ => rfl, rfl, rfl⟩, ⟨rfl, rfl, rfl, rfl, rfl⟩, rfl, rfl,
      fun bytes byte hinput hbyte => ⟨?_, rfl⟩, fun bytes hinput hend => ?_,
      fun known hinput => ⟨?_, rfl, fun byte hbyte => ?_⟩⟩
    · rw [State.nextInput_of_finite hinput, hbyte] at hnext
      cases hnext
      exact hx
    · rw [State.nextInput_of_finite hinput, List.getElem?_eq_none hend] at hnext
      cases hnext
    · rw [hx]
      exact Nat.le_of_lt_succ b.isLt
    · rw [State.nextInput_of_infinite hinput, hbyte] at hnext
      cases hnext
      exact hx

end Sys2Proof.Machine

namespace Sys2Proof.Machine

/-! SUPPORT. The fault causes (60_exceptions.md R141): what a refusal of each operation says of its
operands (the converses are the lemmas of the operations case by case), and that a fault record
comes from such a refusal. -/

/-! ### The refusals of the operations -/

theorem cause_of_quotient_error {dividend divisor : Word} {cause : FaultCause}
    (h : quotient dividend divisor = .error cause) : cause = .divideByZero ∧ divisor = 0#32 := by
  by_cases hzero : divisor = 0#32
  · subst hzero
    cases h.symm.trans (quotient_zero dividend)
    exact ⟨rfl, rfl⟩
  · cases h.symm.trans (quotient_of_ne_zero dividend hzero)

theorem cause_of_outputByte_error {v : Word} {cause : FaultCause}
    (h : outputByte v = .error cause) : cause = .outputRange ∧ 255#32 < v := by
  by_cases hgt : 255#32 < v
  · cases h.symm.trans (outputByte_of_gt hgt)
    exact ⟨rfl, hgt⟩
  · cases h.symm.trans (outputByte_of_le (BitVec.not_lt.mp hgt))

/-- Also the refusals of `set`, by `Memory.set_error_iff_get_error`. -/
theorem Memory.cause_of_get_error {m : Memory} {id off : Word} {cause : FaultCause}
    (h : m.get id off = .error cause) :
    (cause = .unmappedSegment ∧ m.mapped id = false) ∨
      (cause = .offsetOutOfRange ∧ ∃ n, m.len? id = some n ∧ n ≤ off) := by
  cases hg : m.segment? id with
  | none =>
    cases h.symm.trans (Memory.get_of_unmapped hg off)
    exact .inl ⟨rfl, Memory.mapped_eq_false_iff.mpr hg⟩
  | some g =>
    have hlen : m.len? id = some g.len := Memory.len?_eq_some.mpr ⟨g, hg, rfl⟩
    by_cases hoff : g.len ≤ off
    · cases h.symm.trans (Memory.get_of_le hlen hoff)
      exact .inr ⟨rfl, g.len, hlen, hoff⟩
    · cases h.symm.trans (Memory.get_eq_ok.mpr ⟨g, hg, BitVec.not_le.mp hoff, rfl⟩)

theorem Memory.cause_of_map_error {p : Config.Params} {m : Memory} {n : Word} {cause : FaultCause}
    (h : m.map p n = .error cause) :
    cause = .resourceExhausted ∧
      (m.admits p n = false ∨ (m.pool = [] ∧ p.maxSlots ≤ m.tableSize)) := by
  by_cases hrefused : m.admits p n = false ∨ (m.pool = [] ∧ p.maxSlots ≤ m.tableSize)
  · cases h.symm.trans (Memory.map_refused hrefused)
    exact ⟨rfl, hrefused⟩
  · obtain ⟨hadmits, hroom⟩ := not_or.mp hrefused
    rw [Bool.not_eq_false] at hadmits
    cases hpool : m.pool with
    | nil =>
      have hlt : m.tableSize < p.maxSlots := Nat.not_le.mp fun hle => hroom ⟨hpool, hle⟩
      cases h.symm.trans (Memory.map_of_empty_pool hpool hlt hadmits)
    | cons id rest =>
      cases h.symm.trans ((Memory.map_eq_ok_of_pool hpool).mpr ⟨hadmits, rfl, rfl⟩)

theorem Memory.cause_of_unmap_error {m : Memory} {id : Word} {cause : FaultCause}
    (h : m.unmap id = .error cause) :
    (cause = .unmapZero ∧ id = 0#32) ∨
      (cause = .unmapUnmapped ∧ id ≠ 0#32 ∧ m.mapped id = false) := by
  by_cases hzero : id = 0#32
  · subst hzero
    cases h.symm.trans m.unmap_zero
    exact .inl ⟨rfl, rfl⟩
  · cases hmapped : m.mapped id with
    | false =>
      cases h.symm.trans (Memory.unmap_of_unmapped hzero hmapped)
      exact .inr ⟨rfl, hzero, rfl⟩
    | true =>
      cases h.symm.trans (Memory.unmap_of_mapped hzero hmapped)

theorem Memory.cause_of_duplicateToZero_error {p : Config.Params} {m : Memory} {src : Word}
    {cause : FaultCause} (hmapped : m.mapped 0#32 = true)
    (h : m.duplicateToZero p src = .error cause) :
    src ≠ 0#32 ∧ ((cause = .unmappedSegment ∧ m.mapped src = false) ∨
      (cause = .resourceExhausted ∧ ∃ n, m.len? src = some n ∧ m.admits p n = false)) := by
  have hne : src ≠ 0#32 := by
    rintro rfl
    obtain ⟨g, hg⟩ := Memory.mapped_iff.mp hmapped
    cases h.symm.trans (Memory.duplicateToZero_zero p (Memory.len?_eq_some.mpr ⟨g, hg, rfl⟩))
  refine ⟨hne, ?_⟩
  cases hg : m.segment? src with
  | none =>
    have hunmapped := Memory.mapped_eq_false_iff.mpr hg
    cases h.symm.trans (Memory.duplicateToZero_of_unmapped p hunmapped)
    exact .inl ⟨rfl, hunmapped⟩
  | some g =>
    have hlen : m.len? src = some g.len := Memory.len?_eq_some.mpr ⟨g, hg, rfl⟩
    cases hadmits : m.admits p g.len with
    | false =>
      cases h.symm.trans (Memory.duplicateToZero_of_refused hne hlen hadmits)
      exact .inr ⟨rfl, g.len, hlen, hadmits⟩
    | true =>
      cases h.symm.trans (Memory.duplicateToZero_of_segment? hne hg hadmits)

/-! ### The fault of an instruction (60_exceptions.md R150) -/

/-- Of the nine effects only the fault entry leaves a record. -/
theorem Effect.eq_fault_of_fault_apply {e : Effect} {s : State} {r : FaultRecord}
    (hfault : s.fault = none) (h : (e.apply s).fault = some r) : e = .fault r.cause := by
  cases e with
  | fault cause => cases h; rfl
  | _ => exact nomatch hfault.symm.trans h

theorem effectOf_eq_fault_of_exec {i : Instr} {s t : State} {r : FaultRecord}
    (hfault : s.fault = none) (hexec : exec i s = .next t) (hrecord : t.fault = some r) :
    effectOf i s = .fault r.cause :=
  Effect.eq_fault_of_fault_apply hfault (exec_eq_next_iff.mp hexec ▸ hrecord)

/-- An operation whose results are no faults faults by its refusal alone. -/
theorem Effect.error_of_ofResult_eq_fault {α : Type} {result : Except FaultCause α}
    {effect : α → Effect} {cause : FaultCause} (h : Effect.ofResult result effect = .fault cause)
    (heffect : ∀ a, effect a ≠ .fault cause) : result = .error cause := by
  cases result with
  | error cause' => cases h; rfl
  | ok a => exact absurd h (heffect a)

/-- Settles O44: the record is there because the effect of the instruction is the fault entry. -/
theorem faultingInstructionHasNoOtherEffect : Obligations.FaultingInstructionHasNoOtherEffect := by
  intro i s t hfault hexec hrecord
  obtain ⟨r, hrecord⟩ := Option.ne_none_iff_exists'.mp hrecord
  have ht : t = s.raise r.cause := by
    rw [exec_eq_next_iff.mp hexec, effectOf_eq_fault_of_exec hfault hexec hrecord, Effect.apply]
  exact ⟨r.cause, ht ▸ s.raised_raise r.cause⟩

/-- Settles O45: the cause is that of the refused operation, and each operation's refusals say what
held of its operands. -/
theorem eachFaultCauseHasItsInstructionAndCondition :
    Obligations.EachFaultCauseHasItsInstructionAndCondition := by
  rintro i s t ⟨cause, addr, word⟩ hfault hmapped hexec hrecord
  have heffect : effectOf i s = .fault cause := effectOf_eq_fault_of_exec hfault hexec hrecord
  cases i with
  | illegal14 => cases heffect; exact .inl rfl
  | illegal15 => cases heffect; exact .inr rfl
  | div a b c =>
    obtain ⟨rfl, hzero⟩ :=
      cause_of_quotient_error (Effect.error_of_ofResult_eq_fault heffect fun _ => nofun)
    exact ⟨a, b, c, rfl, hzero⟩
  | out c =>
    obtain ⟨rfl, hgt⟩ :=
      cause_of_outputByte_error (Effect.error_of_ofResult_eq_fault heffect fun _ => nofun)
    exact ⟨c, rfl, hgt⟩
  | sload a b c =>
    obtain ⟨rfl, hunmapped⟩ | ⟨rfl, n, hlen, hoff⟩ :=
      Memory.cause_of_get_error (Effect.error_of_ofResult_eq_fault heffect fun _ => nofun)
    · exact .inl ⟨a, b, c, rfl, hunmapped⟩
    · exact .inl ⟨a, b, c, n, rfl, hlen, hoff⟩
  | sstore a b c =>
    have hset := Effect.error_of_ofResult_eq_fault heffect fun _ => nofun
    obtain ⟨rfl, hunmapped⟩ | ⟨rfl, n, hlen, hoff⟩ :=
      Memory.cause_of_get_error (Memory.set_error_iff_get_error.mp hset)
    · exact .inr (.inl ⟨a, b, c, rfl, hunmapped⟩)
    · exact .inr ⟨a, b, c, n, rfl, hlen, hoff⟩
  | map b c =>
    obtain ⟨rfl, hrefused⟩ :=
      Memory.cause_of_map_error (Effect.error_of_ofResult_eq_fault heffect fun _ => nofun)
    exact .inl ⟨b, c, rfl, hrefused⟩
  | unmap c =>
    obtain ⟨rfl, hzero⟩ | ⟨rfl, hne, hunmapped⟩ :=
      Memory.cause_of_unmap_error (Effect.error_of_ofResult_eq_fault heffect fun _ => nofun)
    · exact ⟨c, rfl, hzero⟩
    · exact ⟨c, rfl, hne, hunmapped⟩
  | loadprog b c =>
    obtain ⟨hne, ⟨rfl, hunmapped⟩ | ⟨rfl, n, hlen, hrefused⟩⟩ :=
      Memory.cause_of_duplicateToZero_error hmapped
        (Effect.error_of_ofResult_eq_fault heffect fun _ => nofun)
    · exact .inr (.inr ⟨b, c, rfl, hne, hunmapped⟩)
    · exact .inr ⟨b, c, n, rfl, hne, hlen, hrefused⟩
  | cmov a b c =>
    simp only [effectOf] at heffect
    split at heffect
    · cases heffect
    · cases heffect
  | inp c =>
    simp only [effectOf] at heffect
    cases hnext : s.nextInput with
    | none => rw [hnext] at heffect; cases heffect
    | some b => rw [hnext] at heffect; cases heffect
  | add | mul | nand | halt | loadv => cases heffect

/-! ### What the host sees of a fault (60_exceptions.md R157, R158) -/

/-- Settles O57: EXIT_NONZERO is one more than a natural number. -/
theorem exitStatusIsZeroOnNormalEndAlone : Obligations.ExitStatusIsZeroOnNormalEndAlone := by
  refine fun s => ⟨fun hrunning => ?_, ?_, fun hfaulted => ?_⟩
  · simp only [State.exitStatus, hrunning]
  · rintro (hhalted | hended)
    · exact State.exitStatus_of_halted hhalted
    · simp only [State.exitStatus, hended]
  · have hstatus : s.exitStatus = some Config.exitNonzero := by
      simp only [State.exitStatus, hfaulted]
    exact ⟨_, hstatus, Nat.succ_ne_zero _⟩

/-- Settles O58: of a faulted run some first bytes of `out` are delivered and the others are not. -/
theorem deliveredOutputIsAPrefix : Obligations.DeliveredOutputIsAPrefix := by
  refine fun s => ⟨?_, fun hfaulted => ?_⟩
  · rintro (hhalted | hended)
    · simp only [State.delivered, hhalted]
    · simp only [State.delivered, hended]
  · have hdelivered : s.delivered = some (s.out.take (Config.deliveredOnFault s.out)) := by
      simp only [State.delivered, hfaulted]
    exact ⟨_, _, hdelivered, (List.take_append_drop _ s.out).symm⟩

end Sys2Proof.Machine

namespace Sys2Proof.Machine

/-! SUPPORT. The invariant at the load of any program (70_reset_and_hazards.md R170), and progress
under it (R187). -/

/-- A program of 2^32 words or more is not loaded (92_eei_decisions.md D11). -/
theorem State.length_lt_of_load {p : Config.Params} {program : List Word} {s : State}
    (h : State.load p program = some s) : program.length < 4294967296 := by
  by_contra hlen
  simp [State.load, hlen] at h

/-- The one segment of the loaded store holds the program, in canonical form. -/
theorem State.inv_loaded {p : Config.Params} {program : List Word} (hparams : ParamsOk p)
    (hlen : program.length < 4294967296) : (State.loaded p program).Inv := by
  have hstore : StoreInv p (State.loaded p program).mem (State.loaded p program).programLength :=
    ⟨Memory.sound_singleton (slotWf_ofWords program hlen), hparams.1, rfl⟩
  exact StoreInv.inv_of_no_fault (s := State.loaded p program) hstore hparams
    (fun _ _ => Nat.zero_le _) rfl

/-- Settles O43: a load that completes leaves `State.loaded`, and the program was short enough. -/
theorem loadedMachineMeetsTheInvariant : Obligations.LoadedMachineMeetsTheInvariant := by
  intro p program s hparams hload
  rw [State.eq_loaded_of_load hload]
  exact State.inv_loaded hparams (State.length_lt_of_load hload)

/-- The fetch of a running machine cannot fault: pc is below the program length, which is the length
of segment 0 (40_instruction_cycle.md R82). -/
theorem State.Inv.get_pc_of_running {s : State} (h : s.Inv) (hrunning : s.status = .running) :
    ∃ w, s.mem.get 0#32 s.pc = .ok w := by
  obtain ⟨-, -, hpc⟩ := s.status_running_iff.mp hrunning
  exact Memory.get_of_lt h.programLength hpc

/-- Settles O40: the fetch gives a word, and every instruction answers a next state. -/
theorem runningMachineAlwaysSteps : Obligations.RunningMachineAlwaysSteps := by
  intro s hinv hrunning
  obtain ⟨w, hget⟩ := hinv.get_pc_of_running hrunning
  rw [step_of_get hrunning hget]
  exact exec_next (decode w) (s.fetched w)

end Sys2Proof.Machine

namespace Sys2Proof

/-! ### The fixed words (95_test_vectors.md section 2.1; 30_encoding.md R70) -/

/-- The canonical word of a well-formed instruction decodes to it. -/
theorem decode_eq_of_encode_eq {w : Word} {i : Instr} (hwf : WellFormed i = true)
    (hencode : encode i = w) : decode w = i := by
  rw [← hencode]
  exact decodeOfEncodeIsTheInstruction i hwf

/-- Settles O1: each word is the canonical one of its instruction, except three with ignored bits set
(those of ADD, HALT and opcode 15), which are words of format R3. -/
theorem specTableWordsDecode : Obligations.SpecTableWordsDecode := by
  have hadd : decode (wordR3 3 0x7FFFF 7 7 7) = .add 7 7 7 :=
    decode_wordR3 7 7 7 (by decide) (by decide) (by decide)
  have hhalt : decode (wordR3 7 0x55E6F 0 2 2) = .halt :=
    decode_wordR3 0 2 2 (by decide) (by decide) (by decide)
  have hillegal : decode (wordR3 15 0x7FFFF 7 7 7) = .illegal15 :=
    decode_wordR3 7 7 7 (by decide) (by decide) (by decide)
  refine ⟨?_, ?_, hadd, ?_, hhalt, ?_, ?_, ?_, ?_, ?_, ?_, ?_, hillegal, ?_, ?_, ?_, ?_, ?_, ?_, ?_⟩
    <;> exact decode_eq_of_encode_eq rfl rfl

end Sys2Proof
